-- ==== Sys2Proof/Word.lean ====
section
/-! DEFINITION. The widths of the machine's values (spec/00_scope.md R7, R9, R10): bytes, words, address
fields and register indices. Every value is unsigned (R10). -/

namespace Sys2Proof

/-- An 8-bit unsigned value: a general register, a timer, a memory byte (R7: V_WIDTH, TIMER_WIDTH). -/
abbrev Byte := BitVec 8

/-- A 16-bit unsigned value: I, PC, a stack slot, an opcode (R7: I_WIDTH, PC_WIDTH, STACK_SLOT_WIDTH, OPCODE_WIDTH). -/
abbrev Word := BitVec 16

/-- The 12-bit field `nnn` of an opcode (R101). -/
abbrev Addr12 := BitVec 12

/-- The index of a general register V0..VF (R30: every index 0..15 is valid). -/
abbrev Reg := Fin 16

end Sys2Proof
end

