-- ==== Sys2Proof/Syntax.lean ====
section
/-! DEFINITION. The 34 instructions of spec/opcode_table.json (spec/30_encoding.md R113), one constructor a row, and the
mnemonic of each as the table spells it. SE_reg and SNE_reg have no field for bits 3..0: all 16 words of a pair
(x, y) are the same instruction (R106, R112). SHR and SHL keep the field y, which their meanings ignore (R114). -/

namespace Sys2Proof

/-- One instruction. The sprite height `n` of DRW is a count (R101), so it is a `Nat`; `Instr.wf` bounds it. -/
inductive Instr where
  /-- 00E0 (R150) -/
  | cls
  /-- 00EE (R151) -/
  | ret
  /-- 1nnn (R152) -/
  | jp (nnn : Addr12)
  /-- 2nnn (R153) -/
  | call (nnn : Addr12)
  /-- 3xnn (R170) -/
  | seImm (x : Reg) (nn : Byte)
  /-- 4xnn (R171) -/
  | sneImm (x : Reg) (nn : Byte)
  /-- 5xyN (R172) -/
  | seReg (x y : Reg)
  /-- 6xnn (R174) -/
  | ldImm (x : Reg) (nn : Byte)
  /-- 7xnn (R175) -/
  | addImm (x : Reg) (nn : Byte)
  /-- 8xy0 (R190) -/
  | ldReg (x y : Reg)
  /-- 8xy1 (R191) -/
  | orReg (x y : Reg)
  /-- 8xy2 (R192) -/
  | andReg (x y : Reg)
  /-- 8xy3 (R193) -/
  | xorReg (x y : Reg)
  /-- 8xy4 (R195) -/
  | addReg (x y : Reg)
  /-- 8xy5 (R196) -/
  | sub (x y : Reg)
  /-- 8xy6 (R197) -/
  | shr (x y : Reg)
  /-- 8xy7 (R198) -/
  | subn (x y : Reg)
  /-- 8xyE (R199) -/
  | shl (x y : Reg)
  /-- 9xyN (R173) -/
  | sneReg (x y : Reg)
  /-- Annn (R220) -/
  | ldI (nnn : Addr12)
  /-- Bnnn (R221) -/
  | jpV0 (nnn : Addr12)
  /-- Cxnn (R222) -/
  | rnd (x : Reg) (nn : Byte)
  /-- Dxyn (R235) -/
  | drw (x y : Reg) (n : Nat)
  /-- Ex9E (R250) -/
  | skp (x : Reg)
  /-- ExA1 (R251) -/
  | sknp (x : Reg)
  /-- Fx07 (R260) -/
  | ldVxDt (x : Reg)
  /-- Fx0A (R261) -/
  | ldVxK (x : Reg)
  /-- Fx15 (R262) -/
  | ldDtVx (x : Reg)
  /-- Fx18 (R263) -/
  | ldStVx (x : Reg)
  /-- Fx1E (R265) -/
  | addIVx (x : Reg)
  /-- Fx29 (R266) -/
  | ldFVx (x : Reg)
  /-- Fx33 (R267) -/
  | ldBVx (x : Reg)
  /-- Fx55 (R268) -/
  | ldMemVx (x : Reg)
  /-- Fx65 (R269) -/
  | ldVxMem (x : Reg)
  deriving DecidableEq, Repr

/-- The mnemonics of spec/opcode_table.json, letter for letter. -/
inductive Mnemonic where
  | CLS | RET | JP | CALL | SE_imm | SNE_imm | SE_reg | LD_imm | ADD_imm
  | LD_reg | OR | AND | XOR | ADD_reg | SUB | SHR | SUBN | SHL
  | SNE_reg | LD_I | JP_V0 | RND | DRW | SKP | SKNP | LD_Vx_DT | LD_Vx_K
  | LD_DT_Vx | LD_ST_Vx | ADD_I_Vx | LD_F_Vx | LD_B_Vx | LD_MEM_Vx | LD_Vx_MEM
  deriving DecidableEq, Repr

/-- The row of spec/opcode_table.json an instruction belongs to: the symbolic identity kept in LAST (R53). -/
def Instr.mnemonic : Instr → Mnemonic
  | .cls => .CLS
  | .ret => .RET
  | .jp _ => .JP
  | .call _ => .CALL
  | .seImm _ _ => .SE_imm
  | .sneImm _ _ => .SNE_imm
  | .seReg _ _ => .SE_reg
  | .ldImm _ _ => .LD_imm
  | .addImm _ _ => .ADD_imm
  | .ldReg _ _ => .LD_reg
  | .orReg _ _ => .OR
  | .andReg _ _ => .AND
  | .xorReg _ _ => .XOR
  | .addReg _ _ => .ADD_reg
  | .sub _ _ => .SUB
  | .shr _ _ => .SHR
  | .subn _ _ => .SUBN
  | .shl _ _ => .SHL
  | .sneReg _ _ => .SNE_reg
  | .ldI _ => .LD_I
  | .jpV0 _ => .JP_V0
  | .rnd _ _ => .RND
  | .drw _ _ _ => .DRW
  | .skp _ => .SKP
  | .sknp _ => .SKNP
  | .ldVxDt _ => .LD_Vx_DT
  | .ldVxK _ => .LD_Vx_K
  | .ldDtVx _ => .LD_DT_Vx
  | .ldStVx _ => .LD_ST_Vx
  | .addIVx _ => .ADD_I_Vx
  | .ldFVx _ => .LD_F_Vx
  | .ldBVx _ => .LD_B_Vx
  | .ldMemVx _ => .LD_MEM_Vx
  | .ldVxMem _ => .LD_Vx_MEM

end Sys2Proof
end

