-- ==== Sys2Proof/Decode.lean ====
section
/-! DEFINITION. From opcodes to instructions and back (spec/30_encoding.md). The decoder is a total function of the
16-bit opcode alone (R104) that refuses by name; the encoder is written from the formats of R102 and the patterns of
R113. The bit-field and byte-order helpers stand here. -/

namespace Sys2Proof

/-- `zext_16` of a byte (spec/00_scope.md R10). -/
def Byte.zext16 (b : Byte) : Word := b.setWidth 16

/-- `zext_16` of a 12-bit address field (R103). -/
def Addr12.zext16 (a : Addr12) : Word := a.setWidth 16

/-- `hi ++ lo`: two bytes composed big-endian, the byte at the lower address in bits 15..8 (spec/20_memory.md R73). -/
def composeWord (hi lo : Byte) : Word := BitVec.ofNat 16 (hi.toNat * 256 + lo.toNat)

/-- The byte a word keeps at its lower address: bits 15..8 (R73). -/
def highByte (w : Word) : Byte := BitVec.ofNat 8 (w.toNat / 256)

/-- The byte a word keeps at its higher address: bits 7..0 (R73). -/
def lowByte (w : Word) : Byte := BitVec.ofNat 8 w.toNat

/-! The opcode fields (R101). -/

/-- F, bits 15..12. -/
def fieldF (op : Word) : Nat := op.toNat / 4096

/-- x, bits 11..8. -/
def fieldX (op : Word) : Reg := ⟨op.toNat / 256 % 16, by omega⟩

/-- y, bits 7..4. -/
def fieldY (op : Word) : Reg := ⟨op.toNat / 16 % 16, by omega⟩

/-- n, bits 3..0: a count, or family 8's selector. -/
def fieldN (op : Word) : Nat := op.toNat % 16

/-- nn, bits 7..0: an immediate byte. -/
def fieldNN (op : Word) : Byte := op.setWidth 8

/-- nn, bits 7..0, as the secondary selector of families E and F. -/
def selector (op : Word) : Nat := op.toNat % 256

/-- nnn, bits 11..0. -/
def fieldNNN (op : Word) : Addr12 := op.setWidth 12

/-- Why the decoder refuses. The first four are the illegal words of R105, R107, R108 and R109 (all raise
`Fatal(DECODE, op)`, R111); `truncated` is a byte sequence shorter than one opcode. -/
inductive Reject where
  | family0
  | family8
  | familyE
  | familyF
  | truncated
  deriving DecidableEq, Repr

/-- Family 0 recognizes exactly 0x00E0 and 0x00EE (R105). -/
def decodeFamily0 (op : Word) : Except Reject Instr :=
  if op.toNat = 0x00E0 then .ok .cls
  else if op.toNat = 0x00EE then .ok .ret
  else .error .family0

/-- Family 8 selects on bits 3..0 (R107). -/
def decodeFamily8 (op : Word) : Except Reject Instr :=
  match fieldN op with
  | 0x0 => .ok (.ldReg (fieldX op) (fieldY op))
  | 0x1 => .ok (.orReg (fieldX op) (fieldY op))
  | 0x2 => .ok (.andReg (fieldX op) (fieldY op))
  | 0x3 => .ok (.xorReg (fieldX op) (fieldY op))
  | 0x4 => .ok (.addReg (fieldX op) (fieldY op))
  | 0x5 => .ok (.sub (fieldX op) (fieldY op))
  | 0x6 => .ok (.shr (fieldX op) (fieldY op))
  | 0x7 => .ok (.subn (fieldX op) (fieldY op))
  | 0xE => .ok (.shl (fieldX op) (fieldY op))
  | _ => .error .family8

/-- Family E selects on the whole low byte (R108). -/
def decodeFamilyE (op : Word) : Except Reject Instr :=
  if selector op = 0x9E then .ok (.skp (fieldX op))
  else if selector op = 0xA1 then .ok (.sknp (fieldX op))
  else .error .familyE

/-- Family F selects on the whole low byte (R109). -/
def decodeFamilyF (op : Word) : Except Reject Instr :=
  if selector op = 0x07 then .ok (.ldVxDt (fieldX op))
  else if selector op = 0x0A then .ok (.ldVxK (fieldX op))
  else if selector op = 0x15 then .ok (.ldDtVx (fieldX op))
  else if selector op = 0x18 then .ok (.ldStVx (fieldX op))
  else if selector op = 0x1E then .ok (.addIVx (fieldX op))
  else if selector op = 0x29 then .ok (.ldFVx (fieldX op))
  else if selector op = 0x33 then .ok (.ldBVx (fieldX op))
  else if selector op = 0x55 then .ok (.ldMemVx (fieldX op))
  else if selector op = 0x65 then .ok (.ldVxMem (fieldX op))
  else .error .familyF

/-- The decode tree of R104. Bits 3..0 of families 5 and 9 are not examined (R106; DESIGN CHOICE of the spec, D9,
notes/assumptions/4.md). F is below 16, so the last arm is family 0xF. -/
def decode (op : Word) : Except Reject Instr :=
  match fieldF op with
  | 0x0 => decodeFamily0 op
  | 0x1 => .ok (.jp (fieldNNN op))
  | 0x2 => .ok (.call (fieldNNN op))
  | 0x3 => .ok (.seImm (fieldX op) (fieldNN op))
  | 0x4 => .ok (.sneImm (fieldX op) (fieldNN op))
  | 0x5 => .ok (.seReg (fieldX op) (fieldY op))
  | 0x6 => .ok (.ldImm (fieldX op) (fieldNN op))
  | 0x7 => .ok (.addImm (fieldX op) (fieldNN op))
  | 0x8 => decodeFamily8 op
  | 0x9 => .ok (.sneReg (fieldX op) (fieldY op))
  | 0xA => .ok (.ldI (fieldNNN op))
  | 0xB => .ok (.jpV0 (fieldNNN op))
  | 0xC => .ok (.rnd (fieldX op) (fieldNN op))
  | 0xD => .ok (.drw (fieldX op) (fieldY op) (fieldN op))
  | 0xE => decodeFamilyE op
  | _ => decodeFamilyF op

/-- The decoder on bytes as they stand in memory: the instruction and the bytes after it. Every instruction is two
bytes long (R100). -/
def decodeBytes : List Byte → Except Reject (Instr × List Byte)
  | hi :: lo :: rest =>
    match decode (composeWord hi lo) with
    | .ok i => .ok (i, rest)
    | .error r => .error r
  | _ => .error .truncated

/-- The instruction a row's bits `w` stand for, its first word numbered 15..0, laid out as memory holds it and given
to the decoder. -/
def decodeTableWord (nbits w : Nat) : Option Instr :=
  let op : Word := BitVec.ofNat 16 (w % 2 ^ nbits)
  match decodeBytes [highByte op, lowByte op] with
  | .ok (i, _) => some i
  | .error _ => none

/-! ## The encoder: the formats of R102 -/

/-- Format A: `FFFF nnnn nnnn nnnn`. -/
def formatA (f : Nat) (nnn : Addr12) : Word := BitVec.ofNat 16 (f * 4096 + nnn.toNat)

/-- Format XB: `FFFF xxxx nnnn nnnn`. -/
def formatXB (f : Nat) (x : Reg) (nn : Byte) : Word := BitVec.ofNat 16 (f * 4096 + x.val * 256 + nn.toNat)

/-- Formats XY and XYN: `FFFF xxxx yyyy ssss`, the last nibble a selector or a count. -/
def formatXY (f : Nat) (x y : Reg) (s : Nat) : Word :=
  BitVec.ofNat 16 (f * 4096 + x.val * 256 + y.val * 16 + s)

/-- Format XS: `FFFF xxxx ssss ssss`. -/
def formatXS (f : Nat) (x : Reg) (s : Nat) : Word := BitVec.ofNat 16 (f * 4096 + x.val * 256 + s)

/-- The opcode of an instruction (R113). SE_reg and SNE_reg take the canonical low nibble 0 (R106, R114). -/
def encode : Instr → Word
  | .cls => 0x00E0
  | .ret => 0x00EE
  | .jp nnn => formatA 0x1 nnn
  | .call nnn => formatA 0x2 nnn
  | .seImm x nn => formatXB 0x3 x nn
  | .sneImm x nn => formatXB 0x4 x nn
  | .seReg x y => formatXY 0x5 x y 0x0
  | .ldImm x nn => formatXB 0x6 x nn
  | .addImm x nn => formatXB 0x7 x nn
  | .ldReg x y => formatXY 0x8 x y 0x0
  | .orReg x y => formatXY 0x8 x y 0x1
  | .andReg x y => formatXY 0x8 x y 0x2
  | .xorReg x y => formatXY 0x8 x y 0x3
  | .addReg x y => formatXY 0x8 x y 0x4
  | .sub x y => formatXY 0x8 x y 0x5
  | .shr x y => formatXY 0x8 x y 0x6
  | .subn x y => formatXY 0x8 x y 0x7
  | .shl x y => formatXY 0x8 x y 0xE
  | .sneReg x y => formatXY 0x9 x y 0x0
  | .ldI nnn => formatA 0xA nnn
  | .jpV0 nnn => formatA 0xB nnn
  | .rnd x nn => formatXB 0xC x nn
  | .drw x y n => formatXY 0xD x y n
  | .skp x => formatXS 0xE x 0x9E
  | .sknp x => formatXS 0xE x 0xA1
  | .ldVxDt x => formatXS 0xF x 0x07
  | .ldVxK x => formatXS 0xF x 0x0A
  | .ldDtVx x => formatXS 0xF x 0x15
  | .ldStVx x => formatXS 0xF x 0x18
  | .addIVx x => formatXS 0xF x 0x1E
  | .ldFVx x => formatXS 0xF x 0x29
  | .ldBVx x => formatXS 0xF x 0x33
  | .ldMemVx x => formatXS 0xF x 0x55
  | .ldVxMem x => formatXS 0xF x 0x65

/-! ## The assembler forms of R114 -/

/-- One hexadecimal digit, capital. -/
def hexDigit (n : Nat) : String := (["0", "1", "2", "3", "4", "5", "6", "7", "8", "9", "A", "B", "C", "D", "E", "F"][n % 16]?).getD "?"

/-- `n` as `0x` and `digits` hexadecimal digits. -/
def hexNumber (digits n : Nat) : String :=
  (List.range digits).foldl (fun t k => t ++ hexDigit (n / 16 ^ (digits - 1 - k))) "0x"

/-- The name of a register, `V0`..`VF`. -/
def regName (x : Reg) : String := "V" ++ hexDigit x.val

/-- An instruction as R114 spells it. -/
def Instr.assembly : Instr → String
  | .cls => "CLS"
  | .ret => "RET"
  | .jp nnn => "JP " ++ hexNumber 3 nnn.toNat
  | .call nnn => "CALL " ++ hexNumber 3 nnn.toNat
  | .seImm x nn => "SE " ++ regName x ++ ", " ++ hexNumber 2 nn.toNat
  | .sneImm x nn => "SNE " ++ regName x ++ ", " ++ hexNumber 2 nn.toNat
  | .seReg x y => "SE " ++ regName x ++ ", " ++ regName y
  | .ldImm x nn => "LD " ++ regName x ++ ", " ++ hexNumber 2 nn.toNat
  | .addImm x nn => "ADD " ++ regName x ++ ", " ++ hexNumber 2 nn.toNat
  | .ldReg x y => "LD " ++ regName x ++ ", " ++ regName y
  | .orReg x y => "OR " ++ regName x ++ ", " ++ regName y
  | .andReg x y => "AND " ++ regName x ++ ", " ++ regName y
  | .xorReg x y => "XOR " ++ regName x ++ ", " ++ regName y
  | .addReg x y => "ADD " ++ regName x ++ ", " ++ regName y
  | .sub x y => "SUB " ++ regName x ++ ", " ++ regName y
  | .shr x y => "SHR " ++ regName x ++ ", " ++ regName y
  | .subn x y => "SUBN " ++ regName x ++ ", " ++ regName y
  | .shl x y => "SHL " ++ regName x ++ ", " ++ regName y
  | .sneReg x y => "SNE " ++ regName x ++ ", " ++ regName y
  | .ldI nnn => "LD I, " ++ hexNumber 3 nnn.toNat
  | .jpV0 nnn => "JP V0, " ++ hexNumber 3 nnn.toNat
  | .rnd x nn => "RND " ++ regName x ++ ", " ++ hexNumber 2 nn.toNat
  | .drw x y n => "DRW " ++ regName x ++ ", " ++ regName y ++ ", " ++ hexNumber 1 n
  | .skp x => "SKP " ++ regName x
  | .sknp x => "SKNP " ++ regName x
  | .ldVxDt x => "LD " ++ regName x ++ ", DT"
  | .ldVxK x => "LD " ++ regName x ++ ", K"
  | .ldDtVx x => "LD DT, " ++ regName x
  | .ldStVx x => "LD ST, " ++ regName x
  | .addIVx x => "ADD I, " ++ regName x
  | .ldFVx x => "LD F, " ++ regName x
  | .ldBVx x => "LD B, " ++ regName x
  | .ldMemVx x => "LD [I], " ++ regName x
  | .ldVxMem x => "LD " ++ regName x ++ ", [I]"

/-- A raw word, the only data directive (R114). -/
def rawWordAssembly (w : Word) : String := "DW " ++ hexNumber 4 w.toNat

end Sys2Proof
end

