-- ==== Sys2Proof/Config.lean ====
section
/-! DEFINITION. What the spec leaves to parameters (spec/00_scope.md R8; spec/43_alu.md R194): the default font, the
random source, and the write order of the flag-writing ALU operations. -/

namespace Sys2Proof.Config

/-- The default font table: 16 glyphs of 5 bytes (spec/20_memory.md R78).
PRESUMED (notes/assumptions/1.md): R78 marks these bytes as general knowledge. They are used by
`State.reset` only; `State.construct` takes any table (R8, R321). -/
def defaultGlyphs : List (List Byte) :=
  [[0xF0, 0x90, 0x90, 0x90, 0xF0], [0x20, 0x60, 0x20, 0x20, 0x70],
   [0xF0, 0x10, 0xF0, 0x80, 0xF0], [0xF0, 0x10, 0xF0, 0x10, 0xF0]] ++
  [[0x90, 0x90, 0xF0, 0x10, 0x10], [0xF0, 0x80, 0xF0, 0x10, 0xF0],
   [0xF0, 0x80, 0xF0, 0x90, 0xF0], [0xF0, 0x10, 0x20, 0x40, 0x40]] ++
  [[0xF0, 0x90, 0xF0, 0x90, 0xF0], [0xF0, 0x90, 0xF0, 0x10, 0xF0],
   [0xF0, 0x90, 0xF0, 0x90, 0x90], [0xE0, 0x90, 0xE0, 0x90, 0xE0]] ++
  [[0xF0, 0x80, 0x80, 0x80, 0xF0], [0xE0, 0x90, 0x90, 0x90, 0xE0],
   [0xF0, 0x80, 0xF0, 0x80, 0xF0], [0xF0, 0x80, 0xF0, 0x80, 0x80]]

/-- The default font as the 80 bytes installed at address 0 (R78, R341). -/
def defaultFont : Vector Byte 80 := ⟨defaultGlyphs.flatten.toArray, by decide⟩

/-- The answer of the random source RAND to its `k`-th draw (R8, R222): a FREE VALUE, with no distribution and
no sequence. DESIGN CHOICE for the form (notes/assumptions/2.md): an opaque function of a counter in State. -/
opaque randomByte : Nat → Byte

/-- The parameter `ALU_VF_DEST` of R194: which of the two writes of 8xy4..8xyE comes last when x = F. -/
inductive AluVfDest where
  | flagLast
  | resultLast
  deriving DecidableEq, Repr

/-- The default of `ALU_VF_DEST`, FlagLast (R194, R32).
DESIGN CHOICE (notes/assumptions/3.md): the spec's decision D6. -/
def aluVfDest : AluVfDest := .flagLast

end Sys2Proof.Config
end

