-- ==== Sys2Proof/Machine/State.lean ====
section
/-! DEFINITION. The whole state of the core (spec/10_state.md, spec/20_memory.md) as plain data, the reasons a step can
stop (spec/60_exceptions.md R301), and the state after construction (spec/70_reset_and_hazards.md R341). -/

namespace Sys2Proof

/-- The redraw signal SIG (spec/10_state.md R44). -/
inductive Machine.Signal where
  | idle
  | drew
  | cleared
  deriving DecidableEq, Repr, Inhabited

/-- The causes of the fatal halt, each with the info it records (spec/60_exceptions.md R301). -/
inductive Machine.Fatal where
  /-- DECODE: raised by decode on a word R104 does not decode; info, the opcode. -/
  | decode (op : Word)
  /-- FETCH_RANGE: raised by fetch when PC + 1 > 0xFFF; info, PC. -/
  | fetchRange (pc : Word)
  /-- MEM_RANGE: raised by DRW, LD_B_Vx, LD_MEM_Vx, LD_Vx_MEM when an access through I reaches above 0xFFF; info, the
  lowest such address, max(I, 0x1000). -/
  | memRange (address : Nat)
  /-- KEY_RANGE: raised by SKP and SKNP when V[x] > 15; info, V[x]. -/
  | keyRange (key : Byte)
  /-- STACK_OVERFLOW: raised by CALL when SP = 15 and S[15] is nonzero; info, the PC of the CALL. -/
  | stackOverflow (pc : Word)
  /-- INDEX_OVERFLOW: raised by ADD_I_Vx when I + V[x] > 0xFFFF; info, the sum. -/
  | indexOverflow (sum : Nat)
  deriving DecidableEq, Repr

/-- LAST: the mnemonic and the opcode of the last instruction executed (spec/10_state.md R53). -/
structure Machine.LastInstr where
  id : Mnemonic
  opcode : Word
  deriving DecidableEq, Repr

/-- The 4096-byte store (spec/20_memory.md R70). `font` is the table FONT the instance was constructed with (R78,
R321), which is what an unwritten byte below 80 holds; `cells` lists, by rising address, exactly the bytes that differ
from what an unlisted address reads as. -/
structure Machine.Memory where
  font : Vector Byte 80
  cells : List Host.Cell
  deriving DecidableEq, Repr, Inhabited

/-- The framebuffer's cells by row and then column (spec/10_state.md R43: x in 0..63, y in 0..31). -/
abbrev Machine.Grid := Vector (Vector Bool 64) 32

namespace Machine

/-- The state of the core, as the opening line of spec/10_state.md lists it. Fields `mem.font` and `draws` are the
model's own: the construction arguments FONT and RAND of R321. -/
structure State where
  /-- V[0]..V[15], VF last (R30, R32). -/
  v : Vector Byte 16
  /-- I (R35). -/
  i : Word
  /-- PC (R33): during an instruction, that instruction's address. -/
  pc : Word
  /-- S[0]..S[15] (R37). -/
  stack : Vector Word 16
  /-- SP, an integer 0..15 (R38). -/
  sp : Fin 16
  /-- DT (R40). -/
  dt : Byte
  /-- ST (R41). -/
  st : Byte
  /-- K[0]..K[15], true when pressed (R42). -/
  keys : Vector Bool 16
  /-- FB (R43), true for a cell of value 1. -/
  fb : Grid
  /-- SIG (R44). -/
  sig : Signal
  /-- MEM (spec/20_memory.md R70). -/
  mem : Memory
  /-- HALTED (R52). -/
  halted : Option Fatal
  /-- LAST (R53). -/
  last : Option LastInstr
  /-- The model's own: how many bytes RAND has answered (R222; notes/assumptions/2.md). -/
  draws : Nat
  deriving DecidableEq, Repr, Inhabited

/-- Why the core does not step. Both are safe: the spec gives no next state (R130, R300). -/
inductive Fault where
  /-- The step raises `Fatal(code, info)` and the core stops (R300, R301). Raised by fetch, decode and the
  instructions that `Fatal` names. Safe: nothing after the halt is observable (R303). -/
  | fatal (cause : Fatal)
  /-- The core is already halted: `cycle()` has no step, and no caller call but `construct` has a defined result
  (R130, R300, R330). Raised by the cycle and by the caller calls. Safe. -/
  | halted (cause : Fatal)
  deriving DecidableEq, Repr

/-- What is refused. -/
inductive Refusal where
  /-- An instruction with no meaning yet; raised by no arm of `exec` (every instruction is modelled). Safe. -/
  | notModelled (mnemonic : String)
  /-- `load_rom` of more than 3584 bytes (spec/70_reset_and_hazards.md R343): no state change. Safe. -/
  | romTooLong (length : Nat)
  /-- `set_key` or `get_key` with a code above 15 (spec/60_exceptions.md R323): no state change. Safe. -/
  | keyCode (k : Nat)
  deriving DecidableEq, Repr

/-- The grid with every cell 0 (R56). -/
def Grid.clear : Grid := Vector.replicate 32 (Vector.replicate 64 false)

/-- The construction state of R341 and R56, for a font table and a random source. `rand` is the position in
`Config.randomByte` at which the instance's source starts. Memory lists nothing: bytes 0..79 read as FONT and every
other byte as 0 (R77). -/
def State.construct (font : Vector Byte 80) (rand : Nat) : State where
  v := Vector.replicate 16 0
  i := 0
  pc := 0x200
  stack := Vector.replicate 16 0
  sp := 0
  dt := 0
  st := 0
  keys := Vector.replicate 16 false
  fb := Grid.clear
  sig := .idle
  mem := { font := font, cells := [] }
  halted := none
  last := none
  draws := rand

/-- The machine right after reset: constructed with the default font (R78, notes/assumptions/1.md). The value of
`draws` is a DESIGN CHOICE (notes/assumptions/2.md); no statement rests on it. -/
def State.reset : State := State.construct Config.defaultFont 0

end Machine

/-- Everything of the state but HALTED after a fatal halt: unspecified, any value (spec/40_cycle.md R139,
spec/60_exceptions.md R300). A FREE VALUE, an opaque function of the state the halting cycle began in
(notes/assumptions/5.md). -/
opaque Config.afterHalt : Machine.State → Machine.State

end Sys2Proof
end

