-- ==== Sys2Proof/Machine/Ops.lean ====
section
/-! DEFINITION. The named operations of the core over its state: registers, memory, the call stack, the framebuffer,
the random source, the program-counter disposition and the fatal halt. Meanings and caller calls are written over
these. -/

namespace Sys2Proof.Machine

/-- What a step or a meaning answers. -/
abbrev Result := Host.Outcome State Fault Refusal

/-! ## The fatal halt -/

/-- `raise Fatal(code, info)` (spec/60_exceptions.md R300, R306), the core's only exception: the cycle ends at once
and the core stops. There is no handler, no saved context and no return (R306, R307), so the step answers a fault;
`State.halt` (below) is the state the caller sees afterwards. -/
def raise (cause : Fatal) : Result := .fault (.fatal cause)

/-- What the caller sees after a cycle that raised `cause`: HALTED holds the cause and every other part of the state
is unspecified (spec/40_cycle.md R139, R300; the free value `Config.afterHalt`, notes/assumptions/5.md). -/
def State.halt (cause : Fatal) (s : State) : State := { Config.afterHalt s with halted := some cause }

/-- Go on with an operation's value, or raise the fatal it answers. -/
def attempt {α : Type} (r : Except Fatal α) (continue_ : α → Result) : Result :=
  match r with
  | .ok a => continue_ a
  | .error cause => raise cause

/-! ## The program-counter disposition -/

/-- The disposition of a cycle, a tagged value (spec/40_cycle.md R134). -/
inductive Disposition where
  | next
  | skip
  | jump (target : Word)
  deriving DecidableEq, Repr

/-- Apply a disposition to PC (spec/40_cycle.md R136). -/
def State.resolve (d : Disposition) (s : State) : State :=
  match d with
  | .next => { s with pc := s.pc + 2 }
  | .skip => { s with pc := s.pc + 4 }
  | .jump target => { s with pc := target }

/-- End an instruction with its disposition (R133, R136). -/
def complete (d : Disposition) (s : State) : Result := .next (s.resolve d)

/-- The disposition of the conditional skips: Skip when the condition holds, else Next (spec/40_cycle.md R140). -/
def skipIf (c : Bool) : Disposition := if c then .skip else .next

/-! ## Registers -/

/-- `V[x]` (spec/00_scope.md R11). -/
def State.readV (s : State) (x : Reg) : Byte := s.v[x]

/-- `V[x] <- b`. -/
def State.writeV (x : Reg) (b : Byte) (s : State) : State := { s with v := s.v.set x b }

/-- VF, the flag register (spec/10_state.md R32). -/
def flagReg : Reg := 15

/-- `I <- w`. -/
def State.writeI (w : Word) (s : State) : State := { s with i := w }

/-- `DT <- b`. -/
def State.writeDt (b : Byte) (s : State) : State := { s with dt := b }

/-- `ST <- b`. -/
def State.writeSt (b : Byte) (s : State) : State := { s with st := b }

/-- `V[first], V[first+1], ..` take the bytes in order; indices above 15 do not arise (Fx65 writes at most 16). -/
def State.writeVs (first : Nat) : List Byte → State → State
  | [], s => s
  | b :: bs, s => State.writeVs (first + 1) bs (if h : first < 16 then s.writeV ⟨first, h⟩ b else s)

/-- The values of V[0]..V[x], in order. -/
def State.readVs (x : Reg) (s : State) : List Byte := s.v.toList.take (x.val + 1)

/-! ## Memory -/

/-- What an unlisted address reads as: the construction contents (spec/20_memory.md R77, spec/70_reset_and_hazards.md
R341), FONT below 80 and 0 everywhere else. -/
def Memory.unlisted (font : Vector Byte 80) (a : Nat) : Byte := (font[a]?).getD 0

/-- The byte listed for an address, if any. -/
def lookupCell (a : Nat) : List Host.Cell → Option Byte
  | [] => none
  | c :: cs => if c.1 = a then some c.2 else lookupCell a cs

/-- `MEM[a]` (R70, R81). -/
def Memory.read (m : Memory) (a : Nat) : Byte := (lookupCell a m.cells).getD (Memory.unlisted m.font a)

/-- Put `b` at `a` in a rising list of cells, or drop `a` from it where `b` is what an unlisted `a` reads as. -/
def insertCell (background : Byte) (a : Nat) (b : Byte) : List Host.Cell → List Host.Cell
  | [] => if b = background then [] else [(a, b)]
  | c :: cs =>
    if c.1 < a then c :: insertCell background a b cs
    else
      let rest := if c.1 = a then cs else c :: cs
      if b = background then rest else (a, b) :: rest

/-- `MEM[a] <- b`, for an address the range rule has passed. -/
def Memory.write (m : Memory) (a : Nat) (b : Byte) : Memory :=
  { m with cells := insertCell (Memory.unlisted m.font a) a b m.cells }

/-- Write bytes at `base`, `base + 1`, .., in this order (spec/00_scope.md R13). -/
def Memory.writeBytes (base : Nat) : List Byte → Memory → Memory
  | [], m => m
  | b :: bs, m => Memory.writeBytes (base + 1) bs (m.write base b)

/-- The `n` bytes at `base`, `base + 1`, ... -/
def Memory.readBytes (m : Memory) (base n : Nat) : List Byte := (List.range n).map fun k => m.read (base + k)

/-- The one canonical form of a memory: addresses inside the address space (R70) and strictly rising, and no entry
equal to what an unlisted address reads as. -/
def Memory.wf (m : Memory) : Bool :=
  decide (m.cells.Pairwise fun c d => c.1 < d.1) &&
    m.cells.all fun c => decide (c.1 ≤ 0xFFF) && decide (c.2 ≠ Memory.unlisted m.font c.1)

/-- The range rule R72 for an access of `n` bytes at `base`, checked as a whole before any effect. An access of no
bytes reaches no address (spec/45_draw.md R235). The info is the lowest address above 0xFFF (R301). -/
def checkRange (base n : Nat) : Except Fatal Unit :=
  if n ≠ 0 ∧ base + n - 1 > 0xFFF then .error (.memRange (max base 0x1000)) else .ok ()

/-- Read `n` bytes through a base address (R72, R76). -/
def State.loadBytes (base n : Nat) (s : State) : Except Fatal (List Byte) :=
  match checkRange base n with
  | .ok () => .ok (s.mem.readBytes base n)
  | .error cause => .error cause

/-- Write bytes through a base address (R72, R76): all of them, or none. -/
def State.storeBytes (base : Nat) (bs : List Byte) (s : State) : Except Fatal State :=
  match checkRange base bs.length with
  | .ok () => .ok { s with mem := s.mem.writeBytes base bs }
  | .error cause => .error cause

/-! ## The call stack (spec/41_flow.md R155 to R160) -/

/-- `S[j]`. -/
def State.slot (s : State) (j : Fin 16) : Word := s.stack[j]

/-- Call: advance SP only past a nonzero slot, then write the return address into the slot at SP (R157). With SP = 15
and S[15] nonzero there is no 17th slot, which is fatal (R158; DESIGN CHOICE of the spec, D19,
notes/assumptions/6.md). -/
def State.pushReturn (ret : Word) (s : State) : Except Fatal State :=
  if s.slot s.sp = 0 then .ok { s with stack := s.stack.set s.sp ret }
  else if h : s.sp.val < 15 then
    .ok { s with sp := ⟨s.sp.val + 1, by omega⟩, stack := s.stack.set (s.sp.val + 1) ret }
  else .error (.stackOverflow s.pc)

/-- Return: the value at the current pointer, which is read before the pointer is decremented, and only if it is above
zero (R159). The slot keeps its value (R160; DESIGN CHOICE of the spec, D20, notes/assumptions/7.md). -/
def State.popReturn (s : State) : Word × State :=
  (s.slot s.sp, if s.sp.val > 0 then { s with sp := ⟨s.sp.val - 1, by omega⟩ } else s)

/-! ## Framebuffer and redraw signal (spec/45_draw.md R230, R231) -/

/-- `FB[x,y]`. -/
def State.cell (s : State) (x : Fin 64) (y : Fin 32) : Bool := s.fb[y][x]

/-- `fb_clear()` (R230). -/
def State.fbClear (s : State) : State := { s with fb := Grid.clear, sig := .cleared }

/-- `fb_draw_pixel(x, y)` (R231): the cell's old value, and the state with the cell flipped and SIG = Drew. -/
def State.fbDrawPixel (x : Fin 64) (y : Fin 32) (s : State) : Bool × State :=
  (s.cell x y, { s with fb := s.fb.set y ((s.fb[y]).set x (!s.cell x y)), sig := .drew })

/-! ## Keypad -/

/-- `K[k]` (spec/10_state.md R42). -/
def State.key (s : State) (k : Fin 16) : Bool := s.keys[k]

/-- The highest-indexed pressed key below `bound`, if any (spec/47_misc.md R261). -/
def State.highestKeyBelow (s : State) : (bound : Nat) → Option Nat
  | 0 => none
  | k + 1 => if s.keys[k]?.getD false then some k else s.highestKeyBelow k

/-- The highest-indexed pressed key, if any. -/
def State.highestKey (s : State) : Option Nat := s.highestKeyBelow 16

/-! ## Random source -/

/-- `draw_rand()` (spec/44_index_jump_random.md R222): one byte from RAND, a free value of every draw. -/
def State.drawRand (s : State) : Byte × State := (Config.randomByte s.draws, { s with draws := s.draws + 1 })

end Sys2Proof.Machine
end

