-- ==== Sys2Proof/Machine/Cycle.lean ====
section
/-! DEFINITION. The fetch-decode-execute cycle (spec/40_cycle.md) around a dispatch function, and the placing of an
opcode where the next fetch reads it. -/

namespace Sys2Proof.Machine

/-- Fetch (R131): fatal when PC + 1 > 0xFFF, else the big-endian word at PC. -/
def State.fetch (s : State) : Except Fatal Word :=
  if s.pc.toNat + 1 > 0xFFF then .error (.fetchRange s.pc)
  else .ok (composeWord (s.mem.read s.pc.toNat) (s.mem.read (s.pc.toNat + 1)))

/-- Record (R137): LAST takes the mnemonic and the opcode of the instruction executed. -/
def State.record (i : Instr) (op : Word) (s : State) : State := { s with last := some { id := i.mnemonic, opcode := op } }

/-- Execute and record: LAST is written only by a cycle that completes (R137, R138). -/
def executeAndRecord (execute : Instr → State → Result) (i : Instr) (op : Word) (s : State) : Result :=
  match execute i s with
  | .next t => .next (t.record i op)
  | .fault f => .fault f
  | .refused r => .refused r

/-- The whole step of R138: no step when HALTED is set (R130), else fetch, decode, execute, record. -/
def cycleWith (execute : Instr → State → Result) (s : State) : Result :=
  match s.halted with
  | some cause => .fault (.halted cause)
  | none =>
    attempt s.fetch fun op =>
      match decode op with
      | .error _ => raise (.decode op)
      | .ok i => executeAndRecord execute i op s

/-- `s` able to fetch, with the opcode `op` at the address it fetches from: HALTED is cleared, a PC that could not fetch
is moved to 0x200, and the two bytes are stored as memory holds them (spec/20_memory.md R73). -/
def State.placeOpcode (op : Word) (s : State) : State :=
  let pc : Word := if s.pc.toNat + 1 > 0xFFF then 0x200 else s.pc
  { s with pc := pc, halted := none, mem := s.mem.writeBytes pc.toNat [highByte op, lowByte op] }

end Sys2Proof.Machine
end

