-- ==== Sys2Proof/Machine/Flags.lean ====
section
/-! DEFINITION. The conditions VF receives (spec/10_state.md R32) and the order in which the flag-writing ALU operations
write their result and their flag (spec/43_alu.md R194). -/

namespace Sys2Proof.Machine

/-- A flag is 1 when its condition holds and 0 otherwise (R194, R32; the 0 is the spec's decision D7,
notes/assumptions/11.md). -/
def flagByte (c : Bool) : Byte := if c then 1 else 0

/-- `VF <- c`. -/
def State.writeFlag (c : Bool) (s : State) : State := s.writeV flagReg (flagByte c)

/-- 8xy4: the unsigned sum exceeds 255 (R195). -/
def carries (a b : Byte) : Bool := decide (a.toNat + b.toNat > 255)

/-- 8xy5 and 8xy7: strictly greater, before the subtraction (R196, R198). -/
def exceeds (a b : Byte) : Bool := decide (a.toNat > b.toNat)

/-- 8xy6: bit 0 before the shift (R197). -/
def lowBit (a : Byte) : Bool := decide (a.toNat % 2 = 1)

/-- 8xyE: at least 0x80 before the shift (R199). -/
def highBit (a : Byte) : Bool := decide (a.toNat ≥ 0x80)

/-- Fx1E: the new I exceeds 0xFFF (spec/47_misc.md R265). -/
def aboveMemory (t : Nat) : Bool := decide (t > 0xFFF)

/-- The two writes of 8xy4..8xyE in the order the parameter gives; only x = F tells the orders apart (R194). -/
def State.writeResultAndFlag (order : Config.AluVfDest) (x : Reg) (r : Byte) (c : Bool) (s : State) : State :=
  match order with
  | .flagLast => (s.writeV x r).writeFlag c
  | .resultLast => (s.writeFlag c).writeV x r

/-- The end of a flag-writing ALU operation, in the default order of R194 (notes/assumptions/3.md). -/
def finishAlu (x : Reg) (r : Byte) (c : Bool) (s : State) : Result :=
  complete .next (s.writeResultAndFlag Config.aluVfDest x r c)

end Sys2Proof.Machine
end

