-- ==== Sys2Proof/Machine/Alu.lean ====
section
/-! DEFINITION. Family 8: register-to-register operations (spec/43_alu.md). The 8-bit results wrap modulo 256 (R200). -/

namespace Sys2Proof.Machine

/-- LD Vx, Vy (R190). -/
def execLdReg (x y : Reg) (s : State) : Result := complete .next (s.writeV x (s.readV y))

/-- OR Vx, Vy (R191). -/
def execOrReg (x y : Reg) (s : State) : Result := complete .next (s.writeV x (s.readV x ||| s.readV y))

/-- AND Vx, Vy (R192). -/
def execAndReg (x y : Reg) (s : State) : Result := complete .next (s.writeV x (s.readV x &&& s.readV y))

/-- XOR Vx, Vy (R193). -/
def execXorReg (x y : Reg) (s : State) : Result := complete .next (s.writeV x (s.readV x ^^^ s.readV y))

/-- ADD Vx, Vy (R195). -/
def execAddReg (x y : Reg) (s : State) : Result :=
  finishAlu x (s.readV x + s.readV y) (carries (s.readV x) (s.readV y)) s

/-- SUB Vx, Vy (R196). -/
def execSub (x y : Reg) (s : State) : Result :=
  finishAlu x (s.readV x - s.readV y) (exceeds (s.readV x) (s.readV y)) s

/-- SHR Vx (R197): y is ignored. -/
def execShr (x _y : Reg) (s : State) : Result := finishAlu x (s.readV x >>> 1) (lowBit (s.readV x)) s

/-- SUBN Vx, Vy (R198). -/
def execSubn (x y : Reg) (s : State) : Result :=
  finishAlu x (s.readV y - s.readV x) (exceeds (s.readV y) (s.readV x)) s

/-- SHL Vx (R199): y is ignored. -/
def execShl (x _y : Reg) (s : State) : Result := finishAlu x (s.readV x <<< 1) (highBit (s.readV x)) s

end Sys2Proof.Machine
end

