-- ==== Sys2Proof/Machine/Operands.lean ====
section
/-! DEFINITION. The values instructions make of their operands: key indices, sprite coordinates and bits, BCD digits,
glyph addresses, jump targets. Every operand is read from the state before the instruction (spec/00_scope.md R13). -/

namespace Sys2Proof.Machine

/-- The key a register value names; a value above 15 indexes no key and is fatal (spec/46_keypad.md R252; DESIGN CHOICE
of the spec, D18, notes/assumptions/8.md). -/
def keyIndex (b : Byte) : Except Fatal (Fin 16) :=
  if h : b.toNat ≤ 15 then .ok ⟨b.toNat, by omega⟩ else .error (.keyRange b)

/-- The column `(bx + c) mod 64` of a sprite's column offset `c` (spec/45_draw.md R235). -/
def spriteColumn (bx : Byte) (c : Nat) : Fin 64 := ⟨(bx.toNat + c) % 64, by omega⟩

/-- The row `(by + r) mod 32` of a sprite's row offset `r` (R235). -/
def spriteRow (by_ : Byte) (r : Nat) : Fin 32 := ⟨(by_.toNat + r) % 32, by omega⟩

/-- Whether the sprite byte sets column offset `c`: bit `7 - c` (R234; PRESUMED, the spec's general knowledge D17,
notes/assumptions/9.md). -/
def spriteBit (row : Byte) (c : Nat) : Bool := row.getLsbD (7 - c)

/-- The three BCD digits of a byte, most significant first (spec/47_misc.md R267; the order is PRESUMED, the spec's
general knowledge D16, notes/assumptions/10.md). -/
def bcdDigits (b : Byte) : List Byte :=
  [BitVec.ofNat 8 (b.toNat / 100), BitVec.ofNat 8 (b.toNat / 10 % 10), BitVec.ofNat 8 (b.toNat % 10)]

/-- The address `5 * V[x]` of a glyph (spec/20_memory.md R79, spec/47_misc.md R266). -/
def glyphAddress (b : Byte) : Word := BitVec.ofNat 16 (b.toNat * 5)

/-- The target `nnn + V[0]` of JP_V0, not reduced to 12 bits (spec/44_index_jump_random.md R221). -/
def offsetTarget (nnn : Addr12) (v0 : Byte) : Word := BitVec.ofNat 16 (nnn.toNat + v0.toNat)

end Sys2Proof.Machine
end

