-- ==== Sys2Proof/Machine/Draw.lean ====
section
/-! DEFINITION. Family D: sprite draw (spec/45_draw.md). -/

namespace Sys2Proof.Machine

/-- The cells the set bits of one sprite byte touch, by rising column offset (R235). -/
def rowPixels (bx : Byte) (y : Fin 32) (row : Byte) : List (Fin 64 × Fin 32) :=
  ((List.range 8).filter (spriteBit row)).map fun c => (spriteColumn bx c, y)

/-- The cells the set bits of the sprite bytes touch, the first byte at row offset `r` (R235). -/
def spritePixels (bx by_ : Byte) : (r : Nat) → List Byte → List (Fin 64 × Fin 32)
  | _, [] => []
  | r, row :: rows => rowPixels bx (spriteRow by_ r) row ++ spritePixels bx by_ (r + 1) rows

/-- One pixel of DRW: flip the cell, and set VF to 1 if it was set before (R235). -/
def State.plot (s : State) (p : Fin 64 × Fin 32) : State :=
  if (s.fbDrawPixel p.1 p.2).1 then (s.fbDrawPixel p.1 p.2).2.writeFlag true else (s.fbDrawPixel p.1 p.2).2

/-- DRW Vx, Vy, n (R235): the bytes are checked and read first, the coordinates come from the state before VF is
cleared, and VF is cleared once. -/
def execDrw (x y : Reg) (n : Nat) (s : State) : Result :=
  attempt (s.loadBytes s.i.toNat n) fun rows =>
    complete .next ((spritePixels (s.readV x) (s.readV y) 0 rows).foldl State.plot (s.writeFlag false))

end Sys2Proof.Machine
end

