-- ==== Sys2Proof/Machine/Flow.lean ====
section
/-! DEFINITION. Families 0, 1 and 2: clear, return, jump and call (spec/41_flow.md). -/

namespace Sys2Proof.Machine

/-- CLS (R150). -/
def execCls (s : State) : Result := complete .next s.fbClear

/-- RET (R151). -/
def execRet (s : State) : Result := complete (.jump s.popReturn.1) s.popReturn.2

/-- JP nnn (R152). -/
def execJp (nnn : Addr12) (s : State) : Result := complete (.jump nnn.zext16) s

/-- CALL nnn (R153): the return address is PC + 2 (R154). -/
def execCall (nnn : Addr12) (s : State) : Result :=
  attempt (s.pushReturn (s.pc + 2)) fun t => complete (.jump nnn.zext16) t

end Sys2Proof.Machine
end

