-- ==== Sys2Proof/Machine/IndexJumpRandom.lean ====
section
/-! DEFINITION. Families A, B and C: set index, jump with offset, random (spec/44_index_jump_random.md). -/

namespace Sys2Proof.Machine

/-- LD I, nnn (R220). -/
def execLdI (nnn : Addr12) (s : State) : Result := complete .next (s.writeI nnn.zext16)

/-- JP V0, nnn (R221). -/
def execJpV0 (nnn : Addr12) (s : State) : Result := complete (.jump (offsetTarget nnn (s.readV 0))) s

/-- RND Vx, nn (R222). -/
def execRnd (x : Reg) (nn : Byte) (s : State) : Result :=
  complete .next (s.drawRand.2.writeV x (s.drawRand.1 &&& nn))

end Sys2Proof.Machine
end

