-- ==== Sys2Proof/Machine/Keypad.lean ====
section
/-! DEFINITION. Family E: key-conditional skips (spec/46_keypad.md). -/

namespace Sys2Proof.Machine

/-- SKP Vx (R250). -/
def execSkp (x : Reg) (s : State) : Result :=
  attempt (keyIndex (s.readV x)) fun k => complete (skipIf (s.key k)) s

/-- SKNP Vx (R251). -/
def execSknp (x : Reg) (s : State) : Result :=
  attempt (keyIndex (s.readV x)) fun k => complete (skipIf (!s.key k)) s

end Sys2Proof.Machine
end

