-- ==== Sys2Proof/Machine/Misc.lean ====
section
/-! DEFINITION. Family F: timers, key wait, index arithmetic, BCD and register block transfer (spec/47_misc.md). -/

namespace Sys2Proof.Machine

/-- LD Vx, DT (R260). -/
def execLdVxDt (x : Reg) (s : State) : Result := complete .next (s.writeV x s.dt)

/-- LD Vx, K (R261): PC is held (`Jump(PC)`) while no key is pressed; else the highest-indexed key wins. -/
def execLdVxK (x : Reg) (s : State) : Result :=
  match s.highestKey with
  | none => complete (.jump s.pc) s
  | some k => complete .next (s.writeV x (BitVec.ofNat 8 k))

/-- LD DT, Vx (R262). -/
def execLdDtVx (x : Reg) (s : State) : Result := complete .next (s.writeDt (s.readV x))

/-- LD ST, Vx (R263). -/
def execLdStVx (x : Reg) (s : State) : Result := complete .next (s.writeSt (s.readV x))

/-- The sum of I and a byte, fatal above 16 bits (R265; DESIGN CHOICE of the spec, D15, notes/assumptions/12.md). -/
def indexSum (i : Word) (b : Byte) : Except Fatal Nat :=
  if i.toNat + b.toNat > 0xFFFF then .error (.indexOverflow (i.toNat + b.toNat)) else .ok (i.toNat + b.toNat)

/-- ADD I, Vx (R265). -/
def execAddIVx (x : Reg) (s : State) : Result :=
  attempt (indexSum s.i (s.readV x)) fun t =>
    complete .next ((s.writeI (BitVec.ofNat 16 t)).writeFlag (aboveMemory t))

/-- LD F, Vx (R266). -/
def execLdFVx (x : Reg) (s : State) : Result := complete .next (s.writeI (glyphAddress (s.readV x)))

/-- LD B, Vx (R267). -/
def execLdBVx (x : Reg) (s : State) : Result :=
  attempt (s.storeBytes s.i.toNat (bcdDigits (s.readV x))) fun t => complete .next t

/-- I past a block of V0..Vx: `I + x + 1` (R268, R269). -/
def indexPast (i : Word) (x : Reg) : Word := BitVec.ofNat 16 (i.toNat + x.val + 1)

/-- LD [I], Vx (R268). -/
def execLdMemVx (x : Reg) (s : State) : Result :=
  attempt (s.storeBytes s.i.toNat (s.readVs x)) fun t => complete .next (t.writeI (indexPast s.i x))

/-- LD Vx, [I] (R269). -/
def execLdVxMem (x : Reg) (s : State) : Result :=
  attempt (s.loadBytes s.i.toNat (x.val + 1)) fun bs =>
    complete .next ((s.writeVs 0 bs).writeI (indexPast s.i x))

end Sys2Proof.Machine
end

