-- ==== Sys2Proof/Machine/SkipLoad.lean ====
section
/-! DEFINITION. Families 3, 4, 5, 9, 6 and 7: conditional skips and immediate loads (spec/42_skip_load.md). -/

namespace Sys2Proof.Machine

/-- SE Vx, nn (R170). -/
def execSeImm (x : Reg) (nn : Byte) (s : State) : Result := complete (skipIf (s.readV x == nn)) s

/-- SNE Vx, nn (R171). -/
def execSneImm (x : Reg) (nn : Byte) (s : State) : Result := complete (skipIf (s.readV x != nn)) s

/-- SE Vx, Vy (R172). -/
def execSeReg (x y : Reg) (s : State) : Result := complete (skipIf (s.readV x == s.readV y)) s

/-- SNE Vx, Vy (R173). -/
def execSneReg (x y : Reg) (s : State) : Result := complete (skipIf (s.readV x != s.readV y)) s

/-- LD Vx, nn (R174). -/
def execLdImm (x : Reg) (nn : Byte) (s : State) : Result := complete .next (s.writeV x nn)

/-- ADD Vx, nn (R175): modulo 256, with no flag. -/
def execAddImm (x : Reg) (nn : Byte) (s : State) : Result := complete .next (s.writeV x (s.readV x + nn))

end Sys2Proof.Machine
end

