-- ==== Sys2Proof/Machine/Step.lean ====
section
/-! DEFINITION. One step of the engine, `cycle()` (spec/40_cycle.md R138), and the state whose next step runs a given
opcode. -/

namespace Sys2Proof.Machine

/-- `cycle()`: a fatal halt ends it as a fault (spec/60_exceptions.md R300, R303). -/
def step (s : State) : Host.Outcome State Fault Refusal := cycleWith exec s

/-- `s` with the opcode whose bits are `w` placed where `step` fetches next (notes/assumptions/13.md). -/
def State.withFetchWord (s : State) (nbits w : Nat) : State := s.placeOpcode (BitVec.ofNat 16 (w % 2 ^ nbits))

end Sys2Proof.Machine
end

