-- ==== Sys2Proof/Machine/Caller.lean ====
section
/-! DEFINITION. The caller interface (spec/60_exceptions.md R320 to R330) and the lifecycle (spec/70_reset_and_hazards.md
R341 to R343). A caller makes calls between cycles, in any order and number (R320). -/

namespace Sys2Proof.Machine

/-- The calls of R321 to R329. `rand` is the random source RAND handed to `construct`, as the position in
`Config.randomByte` at which its answers start. -/
inductive Call where
  | construct (font : Vector Byte 80) (rand : Nat)
  | loadRom (rom : List Byte)
  | setKey (k : Nat) (level : Bool)
  | getKey (k : Nat)
  | pollSignal
  | shouldPlayTone
  | framebufferRgba
  | lastInstruction
  | cycle
  | tick
  deriving DecidableEq, Repr

/-- What a call hands back to the caller (R330). -/
inductive Reply where
  | nothing
  | level (pressed : Bool)
  | signal (sig : Signal)
  | tone (play : Bool)
  | rgba (bytes : List Byte)
  | last (instr : Option LastInstr)
  deriving DecidableEq, Repr

/-- The ROM's bytes as cells from `base` on. Every address from 0x200 on reads as 0 when unlisted, so a zero byte is
not listed. -/
def romCells (base : Nat) : List Byte → List Host.Cell
  | [] => []
  | b :: bs => if b = 0 then romCells (base + 1) bs else (base, b) :: romCells (base + 1) bs

/-- Memory after ROM load: [0, 0x200) unchanged, the ROM from 0x200, and 0 after it (R342; DESIGN CHOICE of the spec,
D27, notes/assumptions/14.md). -/
def Memory.load (m : Memory) (rom : List Byte) : Memory :=
  { m with cells := m.cells.filter (fun c => decide (c.1 < 0x200)) ++ romCells 0x200 rom }

/-- The state after ROM load: every other element at its reset value (R342; D29, notes/assumptions/14.md). The random
source stays where it is. -/
def State.load (rom : List Byte) (s : State) : State :=
  { State.construct s.mem.font s.draws with mem := s.mem.load rom }

/-- A saturating decrement (R310). -/
def tickDown (b : Byte) : Byte := if b.toNat > 0 then b - 1 else b

/-- `tick()` (R310). -/
def State.tick (s : State) : State := { s with dt := tickDown s.dt, st := tickDown s.st }

/-- `set_key(k, level)` for a key code 0..15 (R323). -/
def State.setKey (k : Fin 16) (level : Bool) (s : State) : State := { s with keys := s.keys.set k level }

/-- `should_play_tone()` (R326). -/
def State.tone (s : State) : Bool := decide (s.st.toNat > 0)

/-- The four bytes R, G, B, A of a cell: opaque white for 1, opaque black for 0 (R327; the byte values and the channel
order are PRESUMED, the spec's general knowledge D31, notes/assumptions/15.md). -/
def rgbaCell (c : Bool) : List Byte := if c then [0xFF, 0xFF, 0xFF, 0xFF] else [0x00, 0x00, 0x00, 0xFF]

/-- `framebuffer_rgba()` (R327): row-major. -/
def State.rgba (s : State) : List Byte := s.fb.toList.flatMap fun row => row.toList.flatMap rgbaCell

/-- What a call answers: a state and a reply, or why it has no defined result. -/
abbrev CallResult := Host.Outcome (State × Reply) Fault Refusal

/-- A cycle as the caller sees it (R329, R139): the next state; or, after a fatal, HALTED set and the rest of the state
unspecified (R300). -/
def callCycle (s : State) : CallResult :=
  match step s with
  | .next t => .next (t, .nothing)
  | .fault (.fatal cause) => .next (s.halt cause, .nothing)
  | .fault (.halted cause) => .fault (.halted cause)
  | .refused r => .refused r

/-- A call on a core that is not halted. -/
def callRunning (s : State) : Call → CallResult
  | .construct font rand => .next (State.construct font rand, .nothing)
  | .loadRom rom => if rom.length ≤ 3584 then .next (s.load rom, .nothing) else .refused (.romTooLong rom.length)
  | .setKey k level => if h : k < 16 then .next (s.setKey ⟨k, h⟩ level, .nothing) else .refused (.keyCode k)
  | .getKey k => if h : k < 16 then .next (s, .level (s.key ⟨k, h⟩)) else .refused (.keyCode k)
  | .pollSignal => .next (s, .signal s.sig)
  | .shouldPlayTone => .next (s, .tone s.tone)
  | .framebufferRgba => .next (s, .rgba s.rgba)
  | .lastInstruction => .next (s, .last s.last)
  | .cycle => callCycle s
  | .tick => .next (s.tick, .nothing)

/-- One caller call (R320). After a fatal halt only `construct` has a defined result (R330). -/
def call (c : Call) (s : State) : CallResult :=
  match s.halted, c with
  | some _, .construct font rand => .next (State.construct font rand, .nothing)
  | some cause, _ => .fault (.halted cause)
  | none, c => callRunning s c

/-- A schedule of calls, stopping at the first that has no result. A refused call changes no state (R323, R343), so
the caller may go on after it: the schedule skips it. -/
def runCalls : List Call → State → Host.Outcome State Fault Refusal
  | [], s => .next s
  | c :: cs, s =>
    match call c s with
    | .next (t, _) => runCalls cs t
    | .fault f => .fault f
    | .refused _ => runCalls cs s

end Sys2Proof.Machine
end

