-- ==== Sys2Proof/Safety.lean ====
section
/-! DEFINITION. The terms claims use: what a run of the core is, the invariant of a core that is not halted, which parts
of the state a change may touch, and properly nested calls. -/

namespace Sys2Proof.Machine

/-! ## Parts of the state -/

/-- One observable part of the state: a register, a slot, a key, a cell, a memory byte, or one of the single fields. -/
inductive Part where
  | v (x : Reg)
  | i
  | pc
  | slot (j : Fin 16)
  | sp
  | dt
  | st
  | key (k : Fin 16)
  | cell (x : Fin 64) (y : Fin 32)
  | sig
  | mem (address : Nat)
  | font
  | halted
  | last
  | draws

/-- Two states hold the same in one part. -/
def SamePart (s t : State) : Part → Prop
  | .v x => t.readV x = s.readV x
  | .i => t.i = s.i
  | .pc => t.pc = s.pc
  | .slot j => t.slot j = s.slot j
  | .sp => t.sp = s.sp
  | .dt => t.dt = s.dt
  | .st => t.st = s.st
  | .key k => t.key k = s.key k
  | .cell x y => t.cell x y = s.cell x y
  | .sig => t.sig = s.sig
  | .mem a => t.mem.read a = s.mem.read a
  | .font => t.mem.font = s.mem.font
  | .halted => t.halted = s.halted
  | .last => t.last = s.last
  | .draws => t.draws = s.draws

/-- From `s` to `t` nothing changes outside the parts that `may` names (spec/00_scope.md R14). -/
def ChangesOnly (may : Part → Prop) (s t : State) : Prop := ∀ p, ¬ may p → SamePart s t p

/-- The byte of V[x] that VF or a result register receives for a condition: 1 or 0. -/
def bitValue (c : Prop) [Decidable c] : Nat := if c then 1 else 0

/-- A set bit of the `n`-byte sprite at I falls on the cell (cx, cy) when it is drawn at (V[x], V[y])
(spec/45_draw.md R234, R235). -/
def SpriteTouches (s : State) (x y : Reg) (n : Nat) (cx : Fin 64) (cy : Fin 32) : Prop :=
  ∃ r c, r < n ∧ c < 8 ∧ (s.mem.read (s.i.toNat + r)).getLsbD (7 - c) = true ∧
    ((s.readV x).toNat + c) % 64 = cx.val ∧ ((s.readV y).toNat + r) % 32 = cy.val

/-! ## The invariant of a core that is not halted -/

/-- Once SP has moved off slot 0, every slot up to it has been written by a call and is nonzero (spec/41_flow.md R156,
R161). -/
def StackInv (s : State) : Prop := ∀ j : Fin 16, j.val ≤ s.sp.val → 0 < s.sp.val → s.slot j ≠ 0

/-- Memory is in its canonical form, PC is within the range R34 gives, every slot holds 0 or a return address a fetched
CALL can write (R154), and the stack is as R156 says. -/
structure Inv (s : State) : Prop where
  memory : s.mem.wf = true
  pc : s.pc.toNat ≤ 0x10FE
  slots : ∀ j : Fin 16, (s.slot j).toNat ≤ 0x1000
  stack : StackInv s

/-! ## Runs -/

/-- `step` runs the instruction `i` from `s` to `t`: the opcode at PC is one that decodes to `i`. -/
def StepsBy (i : Instr) (s t : State) : Prop :=
  step s = .next t ∧ ∃ op, s.fetch = .ok op ∧ decode op = .ok i

/-- The instructions that neither call nor return. -/
def Instr.isFlat : Instr → Prop
  | .call _ => False
  | .ret => False
  | _ => True

/-- A run in which every CALL is matched by a RET, properly nested (spec/41_flow.md R161). -/
inductive Nested : State → State → Prop where
  | done (s : State) : Nested s s
  | flat {i : Instr} {s t u : State} (hi : Instr.isFlat i) (h : StepsBy i s t) (rest : Nested t u) : Nested s u
  | nest {nnn : Addr12} {s a b c u : State} (hcall : StepsBy (.call nnn) s a) (inner : Nested a b)
      (hret : StepsBy .ret b c) (rest : Nested c u) : Nested s u

/-- A run of `k` steps from `s` that neither halts nor is refused, ending in `t`. -/
def RunsTo (k : Nat) (s t : State) : Prop :=
  match k with
  | 0 => s = t
  | k + 1 => ∃ u, step s = .next u ∧ RunsTo k u t

/-- A safe run: no step within `k` raises a fatal (spec/70_reset_and_hazards.md R351: a fatal halt is never a good
end). -/
def SafeFor (k : Nat) (s : State) : Prop := ∃ t, RunsTo k s t

end Sys2Proof.Machine
end

