-- ==== Sys2Proof/Certificates/Slice0/Obligations.lean ====
section
/-! DEFINITION. The statements for the provers. Each docstring names the rule of spec/ it formalises; where a clause
rests on a decision the spec marks as its own (D<n> of spec/92_eei_decisions.md) it says so. -/

open Sys2Proof Sys2Proof.Machine

/-! ## Encoding -/

/-- R101 to R103: no bit of an encoding is dropped. -/
def Obligations.DecodeOfEncode : Prop := ∀ i : Instr, i.wf = true → decode (encode i) = .ok i

/-- R112: every instruction has one encoding, except that bits 3..0 of families 5 and 9 are free (D9). -/
def Obligations.EncodeOfDecode : Prop :=
  ∀ (op : Word) (i : Instr), decode op = .ok i →
    i.wf = true ∧
    (encode i).toNat = (if op.toNat / 4096 = 0x5 ∨ op.toNat / 4096 = 0x9 then op.toNat / 16 * 16 else op.toNat)

/-- R105, R107, R108, R109 (D8, D10): exactly these words are illegal. That no word of families 5 and 9 is among them is
R106's decision D9 (notes/assumptions/4.md). -/
def Obligations.DecoderRefusesExactly : Prop :=
  ∀ op : Word, (∃ r, decode op = .error r) ↔
    (op.toNat / 4096 = 0x0 ∧ op.toNat ≠ 0x00E0 ∧ op.toNat ≠ 0x00EE) ∨
    (op.toNat / 4096 = 0x8 ∧ op.toNat % 16 ∈ [0x8, 0x9, 0xA, 0xB, 0xC, 0xD, 0xF]) ∨
    (op.toNat / 4096 = 0xE ∧ op.toNat % 256 ∉ [0x9E, 0xA1]) ∨
    (op.toNat / 4096 = 0xF ∧ op.toNat % 256 ∉ [0x07, 0x0A, 0x15, 0x18, 0x1E, 0x29, 0x33, 0x55, 0x65])

/-- R110 (derived there): 51,634 of the 65,536 words decode. The count rests on the spec's decisions D9 (families 5 and 9,
notes/assumptions/4.md), D8 and D10 (families 0, 8, E and F, notes/assumptions/21.md). -/
def Obligations.LegalWordCount : Prop :=
  ((List.range 65536).filter fun w =>
    match decode (BitVec.ofNat 16 w) with
    | .ok _ => true
    | .error _ => false).length = 51634

/-- R113, R102: words written out bit by bit from the formats. -/
def Obligations.SampleWordsDecode : Prop :=
  decode 0b0000_0000_1110_1110 = .ok .ret ∧
  decode 0b0010_0010_0000_1000 = .ok (.call 0x208) ∧
  decode 0b0111_1010_0000_0001 = .ok (.addImm 10 0x01) ∧
  decode 0b1000_0011_0111_1110 = .ok (.shl 3 7) ∧
  decode 0b1101_0001_0010_0101 = .ok (.drw 1 2 5) ∧
  decode 0b1110_0010_1010_0001 = .ok (.sknp 2) ∧
  decode 0b1111_1111_0110_0101 = .ok (.ldVxMem 15)

/-! ## The cycle -/

/-- R73: the byte at PC gives bits 15..8 of the opcode, the byte at PC + 1 bits 7..0. -/
def Obligations.FetchIsBigEndian : Prop :=
  ∀ s : State, s.pc.toNat + 1 ≤ 0xFFF →
    ∃ op, s.fetch = .ok op ∧
      op.toNat = (s.mem.read s.pc.toNat).toNat * 256 + (s.mem.read (s.pc.toNat + 1)).toNat

/-- R138, R137 (D30 for LAST): the step runs the decoded instruction, and LAST records it when it completes. No
instruction is refused (InstructionsRaiseOnlyTheirOwnFatal), so these are all its outcomes. R329: the caller's `cycle`
answers the state of a step that completes (FatalHaltIsTerminal says what it answers after a fatal). -/
def Obligations.StepRunsDecodedInstruction : Prop :=
  (∀ (s : State) (op : Word) (i : Instr), s.halted = none → s.fetch = .ok op → decode op = .ok i →
    (∀ t, exec i s = .next t → step s = .next { t with last := some { id := i.mnemonic, opcode := op } }) ∧
    (∀ f, exec i s = .fault f → step s = .fault f)) ∧
  (∀ s t : State, step s = .next t → call .cycle s = .next (t, .nothing))

/-- R111: a word either decodes, or executing it raises DECODE with the opcode. -/
def Obligations.IllegalWordIsFatal : Prop :=
  ∀ (s : State) (op : Word), s.halted = none → s.fetch = .ok op →
    (∃ i, decode op = .ok i) ∨ step s = .fault (.fatal (.decode op))

/-- R131 (D13), R130, R300, R139 (D2): the fetch range, and the fatal halt as the caller sees it: the halting cycle sets
HALTED to its cause, and from then on no cycle and no call but `construct` has a result. -/
def Obligations.FatalHaltIsTerminal : Prop :=
  (∀ s : State, s.halted = none → s.pc.toNat + 1 > 0xFFF → step s = .fault (.fatal (.fetchRange s.pc))) ∧
  (∀ (s : State) (cause : Fatal), s.halted = none → step s = .fault (.fatal cause) →
    ∃ t, call .cycle s = .next (t, .nothing) ∧ t.halted = some cause) ∧
  (∀ (s : State) (cause : Fatal), s.halted = some cause →
    step s = .fault (.halted cause) ∧
    ∀ c, call c s = .fault (.halted cause) ∨ ∃ font rand, c = .construct font rand)

/-- R304: no instruction is refused, and an instruction raises no fatal but its own, with the info R301 gives. That these
conditions are fatal is the spec's decisions D14, D15, D18, D19, and the codes are D3. -/
def Obligations.InstructionsRaiseOnlyTheirOwnFatal : Prop :=
  ∀ (i : Instr) (s : State), (∀ r, exec i s ≠ .refused r) ∧
    ∀ f, exec i s = .fault f →
      match i with
      | .call _ => f = .fatal (.stackOverflow s.pc)
      | .drw _ _ _ | .ldBVx _ | .ldMemVx _ | .ldVxMem _ => f = .fatal (.memRange (max s.i.toNat 0x1000))
      | .skp x | .sknp x => f = .fatal (.keyRange (s.readV x))
      | .addIVx x => f = .fatal (.indexOverflow (s.i.toNat + (s.readV x).toNat))
      | _ => False

/-- R140: the disposition each instruction gives. That the sum of JP_V0 (R221) is not reduced to 12 bits is the spec's
decision D12 (notes/assumptions/22.md); that a held PC (R261) is a jump to PC is D23 (notes/assumptions/25.md). -/
def Obligations.DispositionByInstruction : Prop :=
  ∀ (i : Instr) (s t : State), exec i s = .next t →
    match i with
    | .ret => t.pc = s.slot s.sp
    | .jp nnn | .call nnn => t.pc.toNat = nnn.toNat
    | .jpV0 nnn => t.pc.toNat = nnn.toNat + (s.readV 0).toNat
    | .seImm _ _ | .sneImm _ _ | .seReg _ _ | .sneReg _ _ | .skp _ | .sknp _ => t.pc = s.pc + 2 ∨ t.pc = s.pc + 4
    | .ldVxK _ => t.pc = s.pc + 2 ∨ t.pc = s.pc
    | _ => t.pc = s.pc + 2

/-- R137 (D30): no instruction reads LAST. -/
def Obligations.LastIsNeverRead : Prop :=
  ∀ (s : State) (l : Option LastInstr), step { s with last := l } = step s

/-! ## Flow -/

/-- R150, R230. -/
def Obligations.ClsClearsFramebuffer : Prop :=
  decode 0x00E0 = .ok .cls ∧
  ∀ s : State, ∃ t, exec .cls s = .next t ∧ (∀ x y, t.cell x y = false) ∧ t.sig = .cleared ∧
    t.pc = s.pc + 2 ∧ ∀ x, t.readV x = s.readV x

/-- R151, R159: the value is read before the pointer is decremented, and only above zero. That the slot keeps its value
is R160's decision D20. -/
def Obligations.RetReadsBeforeDecrement : Prop :=
  decode 0x00EE = .ok .ret ∧
  ∀ s : State, ∃ t, exec .ret s = .next t ∧ t.pc = s.slot s.sp ∧
    t.sp.val = (if s.sp.val > 0 then s.sp.val - 1 else 0) ∧ (∀ j, t.slot j = s.slot j) ∧ ∀ x, t.readV x = s.readV x

/-- R152. -/
def Obligations.JpSetsPc : Prop :=
  ∀ nnn : Addr12, decode (formatA 0x1 nnn) = .ok (.jp nnn) ∧
    ∀ s : State, ∃ t, exec (.jp nnn) s = .next t ∧ t.pc.toNat = nnn.toNat ∧ ∀ x, t.readV x = s.readV x

/-- R153, R154, R157: SP advances only past a nonzero slot, and the slot at the resulting SP takes PC + 2. The overflow
of R158 is the spec's decision D19. -/
def Obligations.CallPushesReturnAddress : Prop :=
  ∀ nnn : Addr12, decode (formatA 0x2 nnn) = .ok (.call nnn) ∧
    ∀ s : State,
      (s.slot s.sp = 0 →
        ∃ t, exec (.call nnn) s = .next t ∧ t.sp = s.sp ∧ t.slot t.sp = s.pc + 2 ∧
          (∀ j, j ≠ t.sp → t.slot j = s.slot j) ∧ t.pc.toNat = nnn.toNat ∧ ∀ x, t.readV x = s.readV x) ∧
      (s.slot s.sp ≠ 0 → s.sp.val ≠ 15 →
        ∃ t, exec (.call nnn) s = .next t ∧ t.sp.val = s.sp.val + 1 ∧ t.slot t.sp = s.pc + 2 ∧
          (∀ j, j ≠ t.sp → t.slot j = s.slot j) ∧ t.pc.toNat = nnn.toNat ∧ ∀ x, t.readV x = s.readV x) ∧
      (s.slot s.sp ≠ 0 → s.sp.val = 15 → exec (.call nnn) s = .fault (.fatal (.stackOverflow s.pc)))

/-- R161 (derived there from R154, R157 and R159): the RET that matches a CALL returns to the address after it, however
many properly nested calls run in between; SP and the slots up to it come back when the CALL advanced SP, and a call
from slot 0 leaves SP at 0. That the slots are kept by a RET is R160's decision D20 (notes/assumptions/7.md). -/
def Obligations.NestedCallsReturn : Prop :=
  ∀ (nnn : Addr12) (s a b c : State), StepsBy (.call nnn) s a → Nested a b → StepsBy .ret b c →
    c.pc = s.pc + 2 ∧
    (s.slot s.sp ≠ 0 → c.sp = s.sp ∧ ∀ j : Fin 16, j.val ≤ s.sp.val → c.slot j = s.slot j) ∧
    (s.sp = 0 → c.sp = 0)

/-- R161 (derived there): S[0] stays nonzero once it is, and then every call advances SP. That a RET keeps S[0] is R160's
decision D20 (notes/assumptions/7.md). -/
def Obligations.NonzeroSlotZeroMakesCallsAdvance : Prop :=
  (∀ s t : State, step s = .next t → s.slot 0 ≠ 0 → t.slot 0 ≠ 0) ∧
  (∀ (nnn : Addr12) (s t : State), StackInv s → s.slot 0 ≠ 0 → exec (.call nnn) s = .next t →
    t.sp.val = s.sp.val + 1)

/-! ## Skips and loads -/

/-- R170, R171. -/
def Obligations.SkipOnImmediate : Prop :=
  ∀ (x : Reg) (nn : Byte),
    decode (formatXB 0x3 x nn) = .ok (.seImm x nn) ∧ decode (formatXB 0x4 x nn) = .ok (.sneImm x nn) ∧
    ∀ s : State,
      (∃ t, exec (.seImm x nn) s = .next t ∧ (∀ z, t.readV z = s.readV z) ∧
        t.pc = if s.readV x = nn then s.pc + 4 else s.pc + 2) ∧
      (∃ t, exec (.sneImm x nn) s = .next t ∧ (∀ z, t.readV z = s.readV z) ∧
        t.pc = if s.readV x ≠ nn then s.pc + 4 else s.pc + 2)

/-- R172, R173. That bits 3..0 are not checked is the spec's decision D9 (R106). -/
def Obligations.SkipOnRegisters : Prop :=
  ∀ (x y : Reg),
    (∀ k, k < 16 → decode (formatXY 0x5 x y k) = .ok (.seReg x y) ∧ decode (formatXY 0x9 x y k) = .ok (.sneReg x y)) ∧
    ∀ s : State,
      (∃ t, exec (.seReg x y) s = .next t ∧ (∀ z, t.readV z = s.readV z) ∧
        t.pc = if s.readV x = s.readV y then s.pc + 4 else s.pc + 2) ∧
      (∃ t, exec (.sneReg x y) s = .next t ∧ (∀ z, t.readV z = s.readV z) ∧
        t.pc = if s.readV x ≠ s.readV y then s.pc + 4 else s.pc + 2)

/-- R174. -/
def Obligations.LdImmLoads : Prop :=
  ∀ (x : Reg) (nn : Byte), decode (formatXB 0x6 x nn) = .ok (.ldImm x nn) ∧
    ∀ s : State, ∃ t, exec (.ldImm x nn) s = .next t ∧ t.readV x = nn ∧ (∀ z, z ≠ x → t.readV z = s.readV z) ∧
      t.pc = s.pc + 2

/-- R175. That VF is left alone is the spec's decision D4. -/
def Obligations.AddImmWrapsWithoutFlag : Prop :=
  ∀ (x : Reg) (nn : Byte), decode (formatXB 0x7 x nn) = .ok (.addImm x nn) ∧
    ∀ s : State, ∃ t, exec (.addImm x nn) s = .next t ∧ (t.readV x).toNat = ((s.readV x).toNat + nn.toNat) % 256 ∧
      (∀ z, z ≠ x → t.readV z = s.readV z) ∧ t.pc = s.pc + 2

/-! ## ALU -/

/-- R190 to R193. That VF is left alone is the spec's decision D4. -/
def Obligations.MoveAndLogicLeaveVf : Prop :=
  ∀ (x y : Reg),
    decode (formatXY 0x8 x y 0x0) = .ok (.ldReg x y) ∧ decode (formatXY 0x8 x y 0x1) = .ok (.orReg x y) ∧
    decode (formatXY 0x8 x y 0x2) = .ok (.andReg x y) ∧ decode (formatXY 0x8 x y 0x3) = .ok (.xorReg x y) ∧
    ∀ s : State,
      (∃ t, exec (.ldReg x y) s = .next t ∧ t.readV x = s.readV y ∧
        (∀ z, z ≠ x → t.readV z = s.readV z) ∧ t.pc = s.pc + 2) ∧
      (∃ t, exec (.orReg x y) s = .next t ∧ (t.readV x).toNat = (s.readV x).toNat ||| (s.readV y).toNat ∧
        (∀ z, z ≠ x → t.readV z = s.readV z) ∧ t.pc = s.pc + 2) ∧
      (∃ t, exec (.andReg x y) s = .next t ∧ (t.readV x).toNat = (s.readV x).toNat &&& (s.readV y).toNat ∧
        (∀ z, z ≠ x → t.readV z = s.readV z) ∧ t.pc = s.pc + 2) ∧
      (∃ t, exec (.xorReg x y) s = .next t ∧ (t.readV x).toNat = (s.readV x).toNat ^^^ (s.readV y).toNat ∧
        (∀ z, z ≠ x → t.readV z = s.readV z) ∧ t.pc = s.pc + 2)

/-- R195. That VF ends holding the flag when x = F is R194's decision D6 (notes/assumptions/3.md), the 0 of a false flag
D7 (notes/assumptions/11.md). -/
def Obligations.AddRegSetsCarry : Prop :=
  ∀ (x y : Reg), decode (formatXY 0x8 x y 0x4) = .ok (.addReg x y) ∧
    ∀ s : State, ∃ t, exec (.addReg x y) s = .next t ∧
      (x ≠ 15 → (t.readV x).toNat = ((s.readV x).toNat + (s.readV y).toNat) % 256) ∧
      (t.readV 15).toNat = bitValue ((s.readV x).toNat + (s.readV y).toNat > 255) ∧
      (∀ z, z ≠ x → z ≠ 15 → t.readV z = s.readV z) ∧ t.pc = s.pc + 2

/-- R196, R198: the flag is the strict comparison before the subtraction. That VF ends holding the flag when x = F is
R194's decision D6 (notes/assumptions/3.md), and the 0 of a false flag D7 (notes/assumptions/11.md). That with y = F the
difference takes the old VF, though the source writes the flag first, is D5 (notes/assumptions/20.md). -/
def Obligations.SubtractionsCompareStrictly : Prop :=
  ∀ (x y : Reg),
    decode (formatXY 0x8 x y 0x5) = .ok (.sub x y) ∧ decode (formatXY 0x8 x y 0x7) = .ok (.subn x y) ∧
    ∀ s : State,
      (∃ t, exec (.sub x y) s = .next t ∧
        (x ≠ 15 → (t.readV x).toNat = ((s.readV x).toNat + 256 - (s.readV y).toNat) % 256) ∧
        (t.readV 15).toNat = bitValue ((s.readV x).toNat > (s.readV y).toNat) ∧
        (∀ z, z ≠ x → z ≠ 15 → t.readV z = s.readV z) ∧ t.pc = s.pc + 2) ∧
      (∃ t, exec (.subn x y) s = .next t ∧
        (x ≠ 15 → (t.readV x).toNat = ((s.readV y).toNat + 256 - (s.readV x).toNat) % 256) ∧
        (t.readV 15).toNat = bitValue ((s.readV y).toNat > (s.readV x).toNat) ∧
        (∀ z, z ≠ x → z ≠ 15 → t.readV z = s.readV z) ∧ t.pc = s.pc + 2)

/-- R197, R199: Vx is shifted by one, whatever y is. That VF ends holding the flag when x = F is R194's decision D6
(notes/assumptions/3.md), and the 0 of a false flag D7 (notes/assumptions/11.md). -/
def Obligations.ShiftsMoveVxByOne : Prop :=
  ∀ (x y : Reg),
    decode (formatXY 0x8 x y 0x6) = .ok (.shr x y) ∧ decode (formatXY 0x8 x y 0xE) = .ok (.shl x y) ∧
    ∀ s : State,
      (∃ t, exec (.shr x y) s = .next t ∧ (x ≠ 15 → (t.readV x).toNat = (s.readV x).toNat / 2) ∧
        (t.readV 15).toNat = (s.readV x).toNat % 2 ∧
        (∀ z, z ≠ x → z ≠ 15 → t.readV z = s.readV z) ∧ t.pc = s.pc + 2) ∧
      (∃ t, exec (.shl x y) s = .next t ∧ (x ≠ 15 → (t.readV x).toNat = (s.readV x).toNat * 2 % 256) ∧
        (t.readV 15).toNat = bitValue ((s.readV x).toNat ≥ 0x80) ∧
        (∀ z, z ≠ x → z ≠ 15 → t.readV z = s.readV z) ∧ t.pc = s.pc + 2)

/-- R194 (D6): the order of the two writes shows only when x = F; then the last write is what VF holds. -/
def Obligations.WriteOrderShowsOnlyAtVf : Prop :=
  ∀ (x : Reg) (r : Byte) (c : Bool) (s : State),
    (x ≠ 15 → s.writeResultAndFlag .flagLast x r c = s.writeResultAndFlag .resultLast x r c) ∧
    (s.writeResultAndFlag .flagLast 15 r c).readV 15 = flagByte c ∧
    (s.writeResultAndFlag .resultLast 15 r c).readV 15 = r

/-! ## Index, jump, random -/

/-- R220. -/
def Obligations.LdISetsIndex : Prop :=
  ∀ nnn : Addr12, decode (formatA 0xA nnn) = .ok (.ldI nnn) ∧
    ∀ s : State, ∃ t, exec (.ldI nnn) s = .next t ∧ t.i.toNat = nnn.toNat ∧ t.pc = s.pc + 2 ∧
      ∀ x, t.readV x = s.readV x

/-- R221. That the sum is not reduced to 12 bits is the spec's decision D12. -/
def Obligations.JpV0AddsV0 : Prop :=
  ∀ nnn : Addr12, decode (formatA 0xB nnn) = .ok (.jpV0 nnn) ∧
    ∀ s : State, ∃ t, exec (.jpV0 nnn) s = .next t ∧ t.pc.toNat = nnn.toNat + (s.readV 0).toNat ∧
      ∀ x, t.readV x = s.readV x

/-- R222: the register takes one draw of RAND masked by nn. The draw is the free value `Config.randomByte` (D24,
notes/assumptions/2.md); the last clause holds whatever it is. -/
def Obligations.RndMasksOneDraw : Prop :=
  ∀ (x : Reg) (nn : Byte), decode (formatXB 0xC x nn) = .ok (.rnd x nn) ∧
    ∀ s : State, ∃ t, exec (.rnd x nn) s = .next t ∧ t.readV x = Config.randomByte s.draws &&& nn ∧
      t.draws = s.draws + 1 ∧ (∀ z, z ≠ x → t.readV z = s.readV z) ∧ t.pc = s.pc + 2 ∧
      ∀ k, nn.getLsbD k = false → (t.readV x).getLsbD k = false

/-! ## Draw -/

/-- R235, R237: a draw flips exactly the cells under its set bits, and VF is 1 exactly when one of them was set. The bit
order is D17 (notes/assumptions/9.md); the coordinates are read before VF is cleared, D5. -/
def Obligations.DrwFlipsTouchedCells : Prop :=
  ∀ (x y : Reg) (n : Nat), n ≤ 15 → decode (formatXY 0xD x y n) = .ok (.drw x y n) ∧
    ∀ s : State, (n = 0 ∨ s.i.toNat + n ≤ 0x1000) →
      ∃ t, exec (.drw x y n) s = .next t ∧
        (∀ cx cy, t.cell cx cy ≠ s.cell cx cy ↔ SpriteTouches s x y n cx cy) ∧
        ((∃ cx cy, SpriteTouches s x y n cx cy ∧ s.cell cx cy = true) → t.readV 15 = 1) ∧
        ((¬ ∃ cx cy, SpriteTouches s x y n cx cy ∧ s.cell cx cy = true) → t.readV 15 = 0) ∧
        ((∃ cx cy, SpriteTouches s x y n cx cy) → t.sig = .drew) ∧
        ((¬ ∃ cx cy, SpriteTouches s x y n cx cy) → t.sig = s.sig) ∧
        (∀ z, z ≠ 15 → t.readV z = s.readV z) ∧ t.pc = s.pc + 2

/-- R231. -/
def Obligations.DrawPixelFlipsAndReports : Prop :=
  ∀ (s : State) (x : Fin 64) (y : Fin 32),
    (s.fbDrawPixel x y).1 = s.cell x y ∧
    (s.fbDrawPixel x y).2.cell x y = !s.cell x y ∧
    (s.fbDrawPixel x y).2.sig = .drew ∧
    ∀ cx cy, (cx, cy) ≠ (x, y) → (s.fbDrawPixel x y).2.cell cx cy = s.cell cx cy

/-- R235 (pseudocode), R232: drawing the same sprite again at the same place restores the grid, and the second draw sets
VF exactly when some touched cell was clear before the first (R235's corner case says "if the sprite has any set bit",
which its pseudocode gives on a clear grid only; notes/assumptions/17.md). Which cells are touched rests on R234's bit
order, D17 (notes/assumptions/9.md). `u` stands for any state with the first draw's grid, the same sprite bytes and the
same coordinates (with x or y = F, VF has changed in between). -/
def Obligations.DrawingTwiceRestoresTheGrid : Prop :=
  ∀ (x y : Reg) (n : Nat) (s t u w : State), n ≤ 15 → exec (.drw x y n) s = .next t →
    u.fb = t.fb → u.mem = s.mem → u.i = s.i → u.readV x = s.readV x → u.readV y = s.readV y →
    exec (.drw x y n) u = .next w →
      w.fb = s.fb ∧
      ((∃ cx cy, SpriteTouches s x y n cx cy ∧ s.cell cx cy = false) → w.readV 15 = 1) ∧
      ((¬ ∃ cx cy, SpriteTouches s x y n cx cy ∧ s.cell cx cy = false) → w.readV 15 = 0)

/-! ## Keypad -/

/-- R250, R251. That a value above 15 is fatal is the spec's decision D18 (R252). -/
def Obligations.KeySkipsTestTheLevel : Prop :=
  ∀ x : Reg, decode (formatXS 0xE x 0x9E) = .ok (.skp x) ∧ decode (formatXS 0xE x 0xA1) = .ok (.sknp x) ∧
    ∀ s : State,
      (∀ k : Fin 16, (s.readV x).toNat = k.val →
        (∃ t, exec (.skp x) s = .next t ∧ (∀ z, t.readV z = s.readV z) ∧
          t.pc = if s.key k = true then s.pc + 4 else s.pc + 2) ∧
        (∃ t, exec (.sknp x) s = .next t ∧ (∀ z, t.readV z = s.readV z) ∧
          t.pc = if s.key k = false then s.pc + 4 else s.pc + 2)) ∧
      ((s.readV x).toNat > 15 →
        exec (.skp x) s = .fault (.fatal (.keyRange (s.readV x))) ∧
        exec (.sknp x) s = .fault (.fatal (.keyRange (s.readV x))))

/-! ## Timers, key wait, index arithmetic, memory transfers -/

/-- R260, R262, R263; the tone flag is R326's. -/
def Obligations.TimerMoves : Prop :=
  ∀ x : Reg,
    decode (formatXS 0xF x 0x07) = .ok (.ldVxDt x) ∧ decode (formatXS 0xF x 0x15) = .ok (.ldDtVx x) ∧
    decode (formatXS 0xF x 0x18) = .ok (.ldStVx x) ∧
    ∀ s : State,
      (∃ t, exec (.ldVxDt x) s = .next t ∧ t.readV x = s.dt ∧ (∀ z, z ≠ x → t.readV z = s.readV z) ∧
        t.dt = s.dt ∧ t.pc = s.pc + 2) ∧
      (∃ t, exec (.ldDtVx x) s = .next t ∧ t.dt = s.readV x ∧ (∀ z, t.readV z = s.readV z) ∧ t.pc = s.pc + 2) ∧
      (∃ t, exec (.ldStVx x) s = .next t ∧ t.st = s.readV x ∧ (t.tone = true ↔ (s.readV x).toNat > 0) ∧
        (∀ z, t.readV z = s.readV z) ∧ t.pc = s.pc + 2)

/-- R261 (D23): PC is held while no key is pressed; else the highest-indexed pressed key is stored. -/
def Obligations.KeyWaitHoldsOrTakesHighest : Prop :=
  ∀ x : Reg, decode (formatXS 0xF x 0x0A) = .ok (.ldVxK x) ∧
    ∀ s : State,
      ((∀ k, s.key k = false) → ∃ t, exec (.ldVxK x) s = .next t ∧ t.pc = s.pc ∧ ∀ z, t.readV z = s.readV z) ∧
      (∀ k, s.key k = true → (∀ j, k < j → s.key j = false) →
        ∃ t, exec (.ldVxK x) s = .next t ∧ (t.readV x).toNat = k.val ∧ (∀ z, z ≠ x → t.readV z = s.readV z) ∧
          t.pc = s.pc + 2)

/-- R265. The 0 of the flag is the spec's decision D7, the overflow D15. -/
def Obligations.AddIndexSetsFlagAboveMemory : Prop :=
  ∀ x : Reg, decode (formatXS 0xF x 0x1E) = .ok (.addIVx x) ∧
    ∀ s : State,
      (s.i.toNat + (s.readV x).toNat ≤ 0xFFFF →
        ∃ t, exec (.addIVx x) s = .next t ∧ t.i.toNat = s.i.toNat + (s.readV x).toNat ∧
          (t.readV 15).toNat = bitValue (s.i.toNat + (s.readV x).toNat > 0xFFF) ∧
          (∀ z, z ≠ 15 → t.readV z = s.readV z) ∧ t.pc = s.pc + 2) ∧
      (s.i.toNat + (s.readV x).toNat > 0xFFFF →
        exec (.addIVx x) s = .fault (.fatal (.indexOverflow (s.i.toNat + (s.readV x).toNat))))

/-- R266, R79. That V[x] above 15 is not masked is the spec's decision D39. -/
def Obligations.LdFPointsAtGlyph : Prop :=
  ∀ x : Reg, decode (formatXS 0xF x 0x29) = .ok (.ldFVx x) ∧
    ∀ s : State, ∃ t, exec (.ldFVx x) s = .next t ∧ t.i.toNat = 5 * (s.readV x).toNat ∧
      (∀ z, t.readV z = s.readV z) ∧ t.pc = s.pc + 2

/-- R267: the three digits at I, I+1, I+2. Their order is the spec's decision D16 (notes/assumptions/10.md), the check
before any write D14. -/
def Obligations.BcdStoresThreeDigits : Prop :=
  ∀ x : Reg, decode (formatXS 0xF x 0x33) = .ok (.ldBVx x) ∧
    ∀ s : State, s.mem.wf = true → s.i.toNat + 2 ≤ 0xFFF →
      ∃ t, exec (.ldBVx x) s = .next t ∧
        (t.mem.read s.i.toNat).toNat ≤ 9 ∧ (t.mem.read (s.i.toNat + 1)).toNat ≤ 9 ∧
        (t.mem.read (s.i.toNat + 2)).toNat ≤ 9 ∧
        (t.mem.read s.i.toNat).toNat * 100 + (t.mem.read (s.i.toNat + 1)).toNat * 10 +
          (t.mem.read (s.i.toNat + 2)).toNat = (s.readV x).toNat ∧
        t.i = s.i ∧ (∀ z, t.readV z = s.readV z) ∧ t.pc = s.pc + 2

/-- R268. The check before any write is the spec's decision D14. -/
def Obligations.BlockStoreAdvancesIndex : Prop :=
  ∀ x : Reg, decode (formatXS 0xF x 0x55) = .ok (.ldMemVx x) ∧
    ∀ s : State, s.mem.wf = true → s.i.toNat + x.val ≤ 0xFFF →
      ∃ t, exec (.ldMemVx x) s = .next t ∧
        (∀ k : Reg, k.val ≤ x.val → t.mem.read (s.i.toNat + k.val) = s.readV k) ∧
        t.i.toNat = s.i.toNat + x.val + 1 ∧ (∀ z, t.readV z = s.readV z) ∧ t.pc = s.pc + 2

/-- R269. The check before any read is the spec's decision D14. -/
def Obligations.BlockLoadAdvancesIndex : Prop :=
  ∀ x : Reg, decode (formatXS 0xF x 0x65) = .ok (.ldVxMem x) ∧
    ∀ s : State, s.i.toNat + x.val ≤ 0xFFF →
      ∃ t, exec (.ldVxMem x) s = .next t ∧
        (∀ k : Reg, k.val ≤ x.val → t.readV k = s.mem.read (s.i.toNat + k.val)) ∧
        (∀ k : Reg, x.val < k.val → t.readV k = s.readV k) ∧
        t.i.toNat = s.i.toNat + x.val + 1 ∧ t.pc = s.pc + 2

/-- R72, R301 (D14): an access through I that reaches above 0xFFF raises MEM_RANGE with the lowest such address. -/
def Obligations.AccessBeyondMemoryIsFatal : Prop :=
  ∀ (s : State) (x y : Reg),
    (∀ n, n ≠ 0 → s.i.toNat + n - 1 > 0xFFF →
      exec (.drw x y n) s = .fault (.fatal (.memRange (max s.i.toNat 0x1000)))) ∧
    (s.i.toNat + 2 > 0xFFF → exec (.ldBVx x) s = .fault (.fatal (.memRange (max s.i.toNat 0x1000)))) ∧
    (s.i.toNat + x.val > 0xFFF →
      exec (.ldMemVx x) s = .fault (.fatal (.memRange (max s.i.toNat 0x1000))) ∧
      exec (.ldVxMem x) s = .fault (.fatal (.memRange (max s.i.toNat 0x1000))))

/-- R81, R83 (D33), R268, R269: bytes a block store writes are what a later block load and a later fetch read. `u` stands
for any later state with the memory the store left. -/
def Obligations.LaterReadsSeeStoredBytes : Prop :=
  ∀ (x : Reg) (s t u : State), s.mem.wf = true → exec (.ldMemVx x) s = .next t → u.mem = t.mem →
    (u.i = s.i → ∃ w, exec (.ldVxMem x) u = .next w ∧ ∀ k : Reg, k.val ≤ x.val → w.readV k = s.readV k) ∧
    (u.pc = s.i → 1 ≤ x.val → ∃ op, u.fetch = .ok op ∧ op.toNat = (s.readV 0).toNat * 256 + (s.readV 1).toNat)

/-! ## Frames (R14, the spec's decision D4) -/

/-- The jumps and skips change PC only. -/
def Obligations.FrameJumpsAndSkips : Prop :=
  ∀ (x y : Reg) (nn : Byte) (nnn : Addr12) (s t : State),
    (exec (.jp nnn) s = .next t ∨ exec (.jpV0 nnn) s = .next t ∨ exec (.seImm x nn) s = .next t ∨
      exec (.sneImm x nn) s = .next t ∨ exec (.seReg x y) s = .next t ∨ exec (.sneReg x y) s = .next t ∨
      exec (.skp x) s = .next t ∨ exec (.sknp x) s = .next t) →
    ChangesOnly (fun p => p = .pc) s t

/-- The loads, moves and operations with no flag change V[x] and PC only. -/
def Obligations.FrameRegisterWriters : Prop :=
  ∀ (x y : Reg) (nn : Byte) (s t : State),
    (exec (.ldImm x nn) s = .next t ∨ exec (.addImm x nn) s = .next t ∨ exec (.ldReg x y) s = .next t ∨
      exec (.orReg x y) s = .next t ∨ exec (.andReg x y) s = .next t ∨ exec (.xorReg x y) s = .next t ∨
      exec (.ldVxDt x) s = .next t ∨ exec (.ldVxK x) s = .next t) →
    ChangesOnly (fun p => p = .v x ∨ p = .pc) s t

/-- The flag-writing ALU operations change V[x], VF and PC only. -/
def Obligations.FrameFlagWriters : Prop :=
  ∀ (x y : Reg) (s t : State),
    (exec (.addReg x y) s = .next t ∨ exec (.sub x y) s = .next t ∨ exec (.shr x y) s = .next t ∨
      exec (.subn x y) s = .next t ∨ exec (.shl x y) s = .next t) →
    ChangesOnly (fun p => p = .v x ∨ p = .v 15 ∨ p = .pc) s t

/-- LD_I and LD_F_Vx change I and PC; ADD_I_Vx also VF; LD_DT_Vx and LD_ST_Vx their timer and PC; RND V[x], PC and the
random source's position. -/
def Obligations.FrameIndexTimersRandom : Prop :=
  ∀ (x : Reg) (nn : Byte) (nnn : Addr12) (s t : State),
    ((exec (.ldI nnn) s = .next t ∨ exec (.ldFVx x) s = .next t) → ChangesOnly (fun p => p = .i ∨ p = .pc) s t) ∧
    (exec (.addIVx x) s = .next t → ChangesOnly (fun p => p = .i ∨ p = .v 15 ∨ p = .pc) s t) ∧
    (exec (.ldDtVx x) s = .next t → ChangesOnly (fun p => p = .dt ∨ p = .pc) s t) ∧
    (exec (.ldStVx x) s = .next t → ChangesOnly (fun p => p = .st ∨ p = .pc) s t) ∧
    (exec (.rnd x nn) s = .next t → ChangesOnly (fun p => p = .v x ∨ p = .draws ∨ p = .pc) s t)

/-- RET changes SP and PC; CALL changes SP, PC and the one slot R157 names. That RET changes no slot is R160's decision
D20 (notes/assumptions/7.md). -/
def Obligations.FrameCallStack : Prop :=
  ∀ (nnn : Addr12) (s t : State),
    (exec .ret s = .next t → ChangesOnly (fun p => p = .sp ∨ p = .pc) s t) ∧
    (exec (.call nnn) s = .next t →
      ∀ j : Fin 16, (if s.slot s.sp = 0 then s.sp.val else s.sp.val + 1) = j.val →
        ChangesOnly (fun p => p = .slot j ∨ p = .sp ∨ p = .pc) s t)

/-- CLS changes the grid, SIG and PC; DRW the touched cells, VF, SIG and PC. Which cells are touched rests on R234's bit
order, D17 (notes/assumptions/9.md). -/
def Obligations.FrameFramebuffer : Prop :=
  ∀ (x y : Reg) (n : Nat) (s t : State), n ≤ 15 →
    (exec .cls s = .next t → ChangesOnly (fun p => (∃ cx cy, p = .cell cx cy) ∨ p = .sig ∨ p = .pc) s t) ∧
    (exec (.drw x y n) s = .next t →
      ChangesOnly (fun p => (∃ cx cy, SpriteTouches s x y n cx cy ∧ p = .cell cx cy) ∨ p = .v 15 ∨ p = .sig ∨ p = .pc)
        s t)

/-- LD_B_Vx stores at I..I+2 and changes PC; LD_MEM_Vx stores at I..I+x and changes I and PC; LD_Vx_MEM stores nothing
and changes V[0]..V[x], I and PC. The premise is the invariant's clause on memory (StepKeepsInv). -/
def Obligations.FrameMemoryTransfers : Prop :=
  ∀ (x : Reg) (s t : State), s.mem.wf = true →
    (exec (.ldBVx x) s = .next t →
      ChangesOnly (fun p => (∃ k, k ≤ 2 ∧ p = .mem (s.i.toNat + k)) ∨ p = .pc) s t) ∧
    (exec (.ldMemVx x) s = .next t →
      ChangesOnly (fun p => (∃ k, k ≤ x.val ∧ p = .mem (s.i.toNat + k)) ∨ p = .i ∨ p = .pc) s t) ∧
    (exec (.ldVxMem x) s = .next t →
      ChangesOnly (fun p => (∃ k : Reg, k.val ≤ x.val ∧ p = .v k) ∨ p = .i ∨ p = .pc) s t)

/-! ## The whole machine -/

/-- The writers R37, R40, R41, R42, R44 and R70 name, over every step (D25: a cycle never ticks; D22: nothing but reset
returns SIG to Idle). That RET, which R37 lists beside CALL as reading or writing the stack, writes no slot is R160's
decision D20 (notes/assumptions/7.md). -/
def Obligations.WhoMayWriteWhat : Prop :=
  ∀ (i : Instr) (s t : State), StepsBy i s t →
    (t.dt ≠ s.dt → ∃ x, i = .ldDtVx x) ∧
    (t.st ≠ s.st → ∃ x, i = .ldStVx x) ∧
    t.keys = s.keys ∧
    (t.fb ≠ s.fb → i = .cls ∨ ∃ x y n, i = .drw x y n) ∧
    (t.sig ≠ s.sig → (i = .cls ∧ t.sig = .cleared) ∨ ((∃ x y n, i = .drw x y n) ∧ t.sig = .drew)) ∧
    (t.stack ≠ s.stack → ∃ nnn, i = .call nnn) ∧
    (t.sp ≠ s.sp → i = .ret ∨ ∃ nnn, i = .call nnn) ∧
    (t.mem ≠ s.mem → ∃ x, i = .ldBVx x ∨ i = .ldMemVx x) ∧
    t.halted = none

/-- R34, R156, R161 and the canonical form of memory: every step keeps the invariant. -/
def Obligations.StepKeepsInv : Prop := ∀ s t : State, Inv s → step s = .next t → Inv t

/-- The invariant holds after construction, whatever the font, and so after reset. -/
def Obligations.ConstructionHasInv : Prop :=
  (∀ (font : Vector Byte 80) (rand : Nat), Inv (State.construct font rand)) ∧ Inv State.reset

/-- Every caller call that leaves the core running keeps the invariant. -/
def Obligations.CallsKeepInv : Prop :=
  ∀ (c : Call) (s t : State) (r : Reply), Inv s → call c s = .next (t, r) → t.halted = none → Inv t

/-- R76, R81 (derived there): a read gives the last byte written, and a write changes only the byte it names. The
canonical form, which the premise asks for and the first clause says a write keeps, is the model's own (DESIGN CHOICE,
notes/assumptions/16.md). -/
def Obligations.ReadAfterWrite : Prop :=
  ∀ (m : Memory) (a k : Nat) (b : Byte), m.wf = true → a ≤ 0xFFF →
    (m.write a b).wf = true ∧ (m.write a b).read a = b ∧ (k ≠ a → (m.write a b).read k = m.read k)

/-- The model's own form of memory (notes/assumptions/16.md): memories of one instance that read the same are equal
data. -/
def Obligations.MemoriesThatReadAlikeAreEqual : Prop :=
  ∀ m n : Memory, m.wf = true → n.wf = true → m.font = n.font → (∀ a, a ≤ 0xFFF → m.read a = n.read a) → m = n

/-! ## Reset and the caller interface -/

/-- R341, R56, R33. That bytes 80 and above are 0 is the spec's decision D27, SIG Idle D22, keys D29, LAST D30. The
caller's `construct` answers that state on any core, halted or not (R321, R330, R307). -/
def Obligations.ConstructionState : Prop :=
  (∀ (font : Vector Byte 80) (rand : Nat) (s : State), s = State.construct font rand →
    (∀ x, s.readV x = 0) ∧ s.i = 0 ∧ s.pc = 0x200 ∧ (∀ j, s.slot j = 0) ∧ s.sp = 0 ∧ s.dt = 0 ∧ s.st = 0 ∧
    (∀ k, s.key k = false) ∧ (∀ x y, s.cell x y = false) ∧ s.sig = .idle ∧ s.halted = none ∧ s.last = none ∧
    (∀ a, a < 80 → font[a]? = some (s.mem.read a)) ∧ (∀ a, 80 ≤ a → s.mem.read a = 0)) ∧
  (∀ (font : Vector Byte 80) (rand : Nat) (s : State),
    call (.construct font rand) s = .next (State.construct font rand, .nothing))

/-- R342, R343: a ROM load (D27, D28, D29) copies the ROM to 0x200, leaves [0, 0x200), zeroes the rest of memory and
resets every other element; a longer ROM is refused. -/
def Obligations.RomLoad : Prop :=
  ∀ (s : State) (rom : List Byte), s.halted = none →
    (rom.length > 3584 → call (.loadRom rom) s = .refused (.romTooLong rom.length)) ∧
    (rom.length ≤ 3584 →
      ∃ t, call (.loadRom rom) s = .next (t, .nothing) ∧
        (∀ a, a < 0x200 → t.mem.read a = s.mem.read a) ∧
        (∀ k, k < rom.length → rom[k]? = some (t.mem.read (0x200 + k))) ∧
        (∀ a, 0x200 + rom.length ≤ a → t.mem.read a = 0) ∧
        (∀ x, t.readV x = 0) ∧ t.i = 0 ∧ t.pc = 0x200 ∧ (∀ j, t.slot j = 0) ∧ t.sp = 0 ∧ t.dt = 0 ∧ t.st = 0 ∧
        (∀ k, t.key k = false) ∧ (∀ x y, t.cell x y = false) ∧ t.sig = .idle ∧ t.halted = none ∧ t.last = none)

/-- R310 (D25), R323 to R326, R328: a tick lowers each timer by 1 if nonzero, set_key writes one level (D38), the polls
are pure reads (D22). -/
def Obligations.TickKeysAndPolls : Prop :=
  ∀ s : State, s.halted = none →
    (∃ t, call .tick s = .next (t, .nothing) ∧ t.dt.toNat = s.dt.toNat - 1 ∧ t.st.toNat = s.st.toNat - 1 ∧
      ChangesOnly (fun p => p = .dt ∨ p = .st) s t) ∧
    (∀ (k : Fin 16) (level : Bool),
      ∃ t, call (.setKey k.val level) s = .next (t, .nothing) ∧ t.key k = level ∧
        ChangesOnly (fun p => p = .key k) s t) ∧
    (∀ k level, k > 15 → call (.setKey k level) s = .refused (.keyCode k)) ∧
    (∀ k : Fin 16, call (.getKey k.val) s = .next (s, .level (s.key k))) ∧
    call .pollSignal s = .next (s, .signal s.sig) ∧
    call .shouldPlayTone s = .next (s, .tone (decide (s.st.toNat > 0))) ∧
    call .lastInstruction s = .next (s, .last s.last)

/-- R327 (D31, notes/assumptions/15.md): 8192 bytes; cell (x, y) is the four bytes at 4 * (y * 64 + x), opaque white for
1 and opaque black for 0. -/
def Obligations.RgbaLayout : Prop :=
  ∀ s : State, s.halted = none →
    ∃ bytes, call .framebufferRgba s = .next (s, .rgba bytes) ∧ bytes.length = 8192 ∧
      ∀ (x : Fin 64) (y : Fin 32),
        (∀ k, k < 3 → bytes[4 * (y.val * 64 + x.val) + k]? = some (if s.cell x y = true then 0xFF else 0x00)) ∧
        bytes[4 * (y.val * 64 + x.val) + 3]? = some 0xFF
end

