-- ==== Sys2Proof/Laws/State.lean ====
section
/-! SUPPORT. What each named update of the state does to each field and to each accessor, one lemma each. -/

namespace Sys2Proof.Machine

variable (s : State)

/-! ### resolve -/

@[simp] theorem State.resolve_v (d : Disposition) : (s.resolve d).v = s.v := by cases d <;> rfl
@[simp] theorem State.resolve_i (d : Disposition) : (s.resolve d).i = s.i := by cases d <;> rfl
@[simp] theorem State.resolve_stack (d : Disposition) : (s.resolve d).stack = s.stack := by cases d <;> rfl
@[simp] theorem State.resolve_sp (d : Disposition) : (s.resolve d).sp = s.sp := by cases d <;> rfl
@[simp] theorem State.resolve_dt (d : Disposition) : (s.resolve d).dt = s.dt := by cases d <;> rfl
@[simp] theorem State.resolve_st (d : Disposition) : (s.resolve d).st = s.st := by cases d <;> rfl
@[simp] theorem State.resolve_keys (d : Disposition) : (s.resolve d).keys = s.keys := by cases d <;> rfl
@[simp] theorem State.resolve_fb (d : Disposition) : (s.resolve d).fb = s.fb := by cases d <;> rfl
@[simp] theorem State.resolve_sig (d : Disposition) : (s.resolve d).sig = s.sig := by cases d <;> rfl
@[simp] theorem State.resolve_mem (d : Disposition) : (s.resolve d).mem = s.mem := by cases d <;> rfl
@[simp] theorem State.resolve_halted (d : Disposition) : (s.resolve d).halted = s.halted := by cases d <;> rfl
@[simp] theorem State.resolve_last (d : Disposition) : (s.resolve d).last = s.last := by cases d <;> rfl
@[simp] theorem State.resolve_draws (d : Disposition) : (s.resolve d).draws = s.draws := by cases d <;> rfl
@[simp] theorem State.resolve_readV (d : Disposition) (x' : Reg) : (s.resolve d).readV x' = s.readV x' := by cases d <;> rfl
@[simp] theorem State.resolve_slot (d : Disposition) (j : Fin 16) : (s.resolve d).slot j = s.slot j := by cases d <;> rfl
@[simp] theorem State.resolve_key (d : Disposition) (k' : Fin 16) : (s.resolve d).key k' = s.key k' := by cases d <;> rfl
@[simp] theorem State.resolve_cell (d : Disposition) (cx : Fin 64) (cy : Fin 32) : (s.resolve d).cell cx cy = s.cell cx cy := by cases d <;> rfl

/-! ### writeV -/

@[simp] theorem State.writeV_v (x : Reg) (b : Byte) : (s.writeV x b).v = s.v.set x b := rfl
@[simp] theorem State.writeV_i (x : Reg) (b : Byte) : (s.writeV x b).i = s.i := rfl
@[simp] theorem State.writeV_pc (x : Reg) (b : Byte) : (s.writeV x b).pc = s.pc := rfl
@[simp] theorem State.writeV_stack (x : Reg) (b : Byte) : (s.writeV x b).stack = s.stack := rfl
@[simp] theorem State.writeV_sp (x : Reg) (b : Byte) : (s.writeV x b).sp = s.sp := rfl
@[simp] theorem State.writeV_dt (x : Reg) (b : Byte) : (s.writeV x b).dt = s.dt := rfl
@[simp] theorem State.writeV_st (x : Reg) (b : Byte) : (s.writeV x b).st = s.st := rfl
@[simp] theorem State.writeV_keys (x : Reg) (b : Byte) : (s.writeV x b).keys = s.keys := rfl
@[simp] theorem State.writeV_fb (x : Reg) (b : Byte) : (s.writeV x b).fb = s.fb := rfl
@[simp] theorem State.writeV_sig (x : Reg) (b : Byte) : (s.writeV x b).sig = s.sig := rfl
@[simp] theorem State.writeV_mem (x : Reg) (b : Byte) : (s.writeV x b).mem = s.mem := rfl
@[simp] theorem State.writeV_halted (x : Reg) (b : Byte) : (s.writeV x b).halted = s.halted := rfl
@[simp] theorem State.writeV_last (x : Reg) (b : Byte) : (s.writeV x b).last = s.last := rfl
@[simp] theorem State.writeV_draws (x : Reg) (b : Byte) : (s.writeV x b).draws = s.draws := rfl
@[simp] theorem State.writeV_slot (x : Reg) (b : Byte) (j : Fin 16) : (s.writeV x b).slot j = s.slot j := rfl
@[simp] theorem State.writeV_key (x : Reg) (b : Byte) (k' : Fin 16) : (s.writeV x b).key k' = s.key k' := rfl
@[simp] theorem State.writeV_cell (x : Reg) (b : Byte) (cx : Fin 64) (cy : Fin 32) : (s.writeV x b).cell cx cy = s.cell cx cy := rfl

/-! ### writeI -/

@[simp] theorem State.writeI_v (w : Word) : (s.writeI w).v = s.v := rfl
@[simp] theorem State.writeI_i (w : Word) : (s.writeI w).i = w := rfl
@[simp] theorem State.writeI_pc (w : Word) : (s.writeI w).pc = s.pc := rfl
@[simp] theorem State.writeI_stack (w : Word) : (s.writeI w).stack = s.stack := rfl
@[simp] theorem State.writeI_sp (w : Word) : (s.writeI w).sp = s.sp := rfl
@[simp] theorem State.writeI_dt (w : Word) : (s.writeI w).dt = s.dt := rfl
@[simp] theorem State.writeI_st (w : Word) : (s.writeI w).st = s.st := rfl
@[simp] theorem State.writeI_keys (w : Word) : (s.writeI w).keys = s.keys := rfl
@[simp] theorem State.writeI_fb (w : Word) : (s.writeI w).fb = s.fb := rfl
@[simp] theorem State.writeI_sig (w : Word) : (s.writeI w).sig = s.sig := rfl
@[simp] theorem State.writeI_mem (w : Word) : (s.writeI w).mem = s.mem := rfl
@[simp] theorem State.writeI_halted (w : Word) : (s.writeI w).halted = s.halted := rfl
@[simp] theorem State.writeI_last (w : Word) : (s.writeI w).last = s.last := rfl
@[simp] theorem State.writeI_draws (w : Word) : (s.writeI w).draws = s.draws := rfl
@[simp] theorem State.writeI_readV (w : Word) (x' : Reg) : (s.writeI w).readV x' = s.readV x' := rfl
@[simp] theorem State.writeI_slot (w : Word) (j : Fin 16) : (s.writeI w).slot j = s.slot j := rfl
@[simp] theorem State.writeI_key (w : Word) (k' : Fin 16) : (s.writeI w).key k' = s.key k' := rfl
@[simp] theorem State.writeI_cell (w : Word) (cx : Fin 64) (cy : Fin 32) : (s.writeI w).cell cx cy = s.cell cx cy := rfl

/-! ### writeDt -/

@[simp] theorem State.writeDt_v (b : Byte) : (s.writeDt b).v = s.v := rfl
@[simp] theorem State.writeDt_i (b : Byte) : (s.writeDt b).i = s.i := rfl
@[simp] theorem State.writeDt_pc (b : Byte) : (s.writeDt b).pc = s.pc := rfl
@[simp] theorem State.writeDt_stack (b : Byte) : (s.writeDt b).stack = s.stack := rfl
@[simp] theorem State.writeDt_sp (b : Byte) : (s.writeDt b).sp = s.sp := rfl
@[simp] theorem State.writeDt_dt (b : Byte) : (s.writeDt b).dt = b := rfl
@[simp] theorem State.writeDt_st (b : Byte) : (s.writeDt b).st = s.st := rfl
@[simp] theorem State.writeDt_keys (b : Byte) : (s.writeDt b).keys = s.keys := rfl
@[simp] theorem State.writeDt_fb (b : Byte) : (s.writeDt b).fb = s.fb := rfl
@[simp] theorem State.writeDt_sig (b : Byte) : (s.writeDt b).sig = s.sig := rfl
@[simp] theorem State.writeDt_mem (b : Byte) : (s.writeDt b).mem = s.mem := rfl
@[simp] theorem State.writeDt_halted (b : Byte) : (s.writeDt b).halted = s.halted := rfl
@[simp] theorem State.writeDt_last (b : Byte) : (s.writeDt b).last = s.last := rfl
@[simp] theorem State.writeDt_draws (b : Byte) : (s.writeDt b).draws = s.draws := rfl
@[simp] theorem State.writeDt_readV (b : Byte) (x' : Reg) : (s.writeDt b).readV x' = s.readV x' := rfl
@[simp] theorem State.writeDt_slot (b : Byte) (j : Fin 16) : (s.writeDt b).slot j = s.slot j := rfl
@[simp] theorem State.writeDt_key (b : Byte) (k' : Fin 16) : (s.writeDt b).key k' = s.key k' := rfl
@[simp] theorem State.writeDt_cell (b : Byte) (cx : Fin 64) (cy : Fin 32) : (s.writeDt b).cell cx cy = s.cell cx cy := rfl

/-! ### writeSt -/

@[simp] theorem State.writeSt_v (b : Byte) : (s.writeSt b).v = s.v := rfl
@[simp] theorem State.writeSt_i (b : Byte) : (s.writeSt b).i = s.i := rfl
@[simp] theorem State.writeSt_pc (b : Byte) : (s.writeSt b).pc = s.pc := rfl
@[simp] theorem State.writeSt_stack (b : Byte) : (s.writeSt b).stack = s.stack := rfl
@[simp] theorem State.writeSt_sp (b : Byte) : (s.writeSt b).sp = s.sp := rfl
@[simp] theorem State.writeSt_dt (b : Byte) : (s.writeSt b).dt = s.dt := rfl
@[simp] theorem State.writeSt_st (b : Byte) : (s.writeSt b).st = b := rfl
@[simp] theorem State.writeSt_keys (b : Byte) : (s.writeSt b).keys = s.keys := rfl
@[simp] theorem State.writeSt_fb (b : Byte) : (s.writeSt b).fb = s.fb := rfl
@[simp] theorem State.writeSt_sig (b : Byte) : (s.writeSt b).sig = s.sig := rfl
@[simp] theorem State.writeSt_mem (b : Byte) : (s.writeSt b).mem = s.mem := rfl
@[simp] theorem State.writeSt_halted (b : Byte) : (s.writeSt b).halted = s.halted := rfl
@[simp] theorem State.writeSt_last (b : Byte) : (s.writeSt b).last = s.last := rfl
@[simp] theorem State.writeSt_draws (b : Byte) : (s.writeSt b).draws = s.draws := rfl
@[simp] theorem State.writeSt_readV (b : Byte) (x' : Reg) : (s.writeSt b).readV x' = s.readV x' := rfl
@[simp] theorem State.writeSt_slot (b : Byte) (j : Fin 16) : (s.writeSt b).slot j = s.slot j := rfl
@[simp] theorem State.writeSt_key (b : Byte) (k' : Fin 16) : (s.writeSt b).key k' = s.key k' := rfl
@[simp] theorem State.writeSt_cell (b : Byte) (cx : Fin 64) (cy : Fin 32) : (s.writeSt b).cell cx cy = s.cell cx cy := rfl

/-! ### writeFlag -/

@[simp] theorem State.writeFlag_v (c : Bool) : (s.writeFlag c).v = s.v.set flagReg (flagByte c) := rfl
@[simp] theorem State.writeFlag_i (c : Bool) : (s.writeFlag c).i = s.i := rfl
@[simp] theorem State.writeFlag_pc (c : Bool) : (s.writeFlag c).pc = s.pc := rfl
@[simp] theorem State.writeFlag_stack (c : Bool) : (s.writeFlag c).stack = s.stack := rfl
@[simp] theorem State.writeFlag_sp (c : Bool) : (s.writeFlag c).sp = s.sp := rfl
@[simp] theorem State.writeFlag_dt (c : Bool) : (s.writeFlag c).dt = s.dt := rfl
@[simp] theorem State.writeFlag_st (c : Bool) : (s.writeFlag c).st = s.st := rfl
@[simp] theorem State.writeFlag_keys (c : Bool) : (s.writeFlag c).keys = s.keys := rfl
@[simp] theorem State.writeFlag_fb (c : Bool) : (s.writeFlag c).fb = s.fb := rfl
@[simp] theorem State.writeFlag_sig (c : Bool) : (s.writeFlag c).sig = s.sig := rfl
@[simp] theorem State.writeFlag_mem (c : Bool) : (s.writeFlag c).mem = s.mem := rfl
@[simp] theorem State.writeFlag_halted (c : Bool) : (s.writeFlag c).halted = s.halted := rfl
@[simp] theorem State.writeFlag_last (c : Bool) : (s.writeFlag c).last = s.last := rfl
@[simp] theorem State.writeFlag_draws (c : Bool) : (s.writeFlag c).draws = s.draws := rfl
@[simp] theorem State.writeFlag_slot (c : Bool) (j : Fin 16) : (s.writeFlag c).slot j = s.slot j := rfl
@[simp] theorem State.writeFlag_key (c : Bool) (k' : Fin 16) : (s.writeFlag c).key k' = s.key k' := rfl
@[simp] theorem State.writeFlag_cell (c : Bool) (cx : Fin 64) (cy : Fin 32) : (s.writeFlag c).cell cx cy = s.cell cx cy := rfl

/-! ### writeResultAndFlag -/

@[simp] theorem State.writeResultAndFlag_i (order : Config.AluVfDest) (x : Reg) (r : Byte) (c : Bool) : (s.writeResultAndFlag order x r c).i = s.i := by cases order <;> rfl
@[simp] theorem State.writeResultAndFlag_pc (order : Config.AluVfDest) (x : Reg) (r : Byte) (c : Bool) : (s.writeResultAndFlag order x r c).pc = s.pc := by cases order <;> rfl
@[simp] theorem State.writeResultAndFlag_stack (order : Config.AluVfDest) (x : Reg) (r : Byte) (c : Bool) : (s.writeResultAndFlag order x r c).stack = s.stack := by cases order <;> rfl
@[simp] theorem State.writeResultAndFlag_sp (order : Config.AluVfDest) (x : Reg) (r : Byte) (c : Bool) : (s.writeResultAndFlag order x r c).sp = s.sp := by cases order <;> rfl
@[simp] theorem State.writeResultAndFlag_dt (order : Config.AluVfDest) (x : Reg) (r : Byte) (c : Bool) : (s.writeResultAndFlag order x r c).dt = s.dt := by cases order <;> rfl
@[simp] theorem State.writeResultAndFlag_st (order : Config.AluVfDest) (x : Reg) (r : Byte) (c : Bool) : (s.writeResultAndFlag order x r c).st = s.st := by cases order <;> rfl
@[simp] theorem State.writeResultAndFlag_keys (order : Config.AluVfDest) (x : Reg) (r : Byte) (c : Bool) : (s.writeResultAndFlag order x r c).keys = s.keys := by cases order <;> rfl
@[simp] theorem State.writeResultAndFlag_fb (order : Config.AluVfDest) (x : Reg) (r : Byte) (c : Bool) : (s.writeResultAndFlag order x r c).fb = s.fb := by cases order <;> rfl
@[simp] theorem State.writeResultAndFlag_sig (order : Config.AluVfDest) (x : Reg) (r : Byte) (c : Bool) : (s.writeResultAndFlag order x r c).sig = s.sig := by cases order <;> rfl
@[simp] theorem State.writeResultAndFlag_mem (order : Config.AluVfDest) (x : Reg) (r : Byte) (c : Bool) : (s.writeResultAndFlag order x r c).mem = s.mem := by cases order <;> rfl
@[simp] theorem State.writeResultAndFlag_halted (order : Config.AluVfDest) (x : Reg) (r : Byte) (c : Bool) : (s.writeResultAndFlag order x r c).halted = s.halted := by cases order <;> rfl
@[simp] theorem State.writeResultAndFlag_last (order : Config.AluVfDest) (x : Reg) (r : Byte) (c : Bool) : (s.writeResultAndFlag order x r c).last = s.last := by cases order <;> rfl
@[simp] theorem State.writeResultAndFlag_draws (order : Config.AluVfDest) (x : Reg) (r : Byte) (c : Bool) : (s.writeResultAndFlag order x r c).draws = s.draws := by cases order <;> rfl
@[simp] theorem State.writeResultAndFlag_slot (order : Config.AluVfDest) (x : Reg) (r : Byte) (c : Bool) (j : Fin 16) : (s.writeResultAndFlag order x r c).slot j = s.slot j := by cases order <;> rfl
@[simp] theorem State.writeResultAndFlag_key (order : Config.AluVfDest) (x : Reg) (r : Byte) (c : Bool) (k' : Fin 16) : (s.writeResultAndFlag order x r c).key k' = s.key k' := by cases order <;> rfl
@[simp] theorem State.writeResultAndFlag_cell (order : Config.AluVfDest) (x : Reg) (r : Byte) (c : Bool) (cx : Fin 64) (cy : Fin 32) : (s.writeResultAndFlag order x r c).cell cx cy = s.cell cx cy := by cases order <;> rfl

/-! ### fbClear -/

@[simp] theorem State.fbClear_v : (s.fbClear).v = s.v := rfl
@[simp] theorem State.fbClear_i : (s.fbClear).i = s.i := rfl
@[simp] theorem State.fbClear_pc : (s.fbClear).pc = s.pc := rfl
@[simp] theorem State.fbClear_stack : (s.fbClear).stack = s.stack := rfl
@[simp] theorem State.fbClear_sp : (s.fbClear).sp = s.sp := rfl
@[simp] theorem State.fbClear_dt : (s.fbClear).dt = s.dt := rfl
@[simp] theorem State.fbClear_st : (s.fbClear).st = s.st := rfl
@[simp] theorem State.fbClear_keys : (s.fbClear).keys = s.keys := rfl
@[simp] theorem State.fbClear_fb : (s.fbClear).fb = Grid.clear := rfl
@[simp] theorem State.fbClear_sig : (s.fbClear).sig = .cleared := rfl
@[simp] theorem State.fbClear_mem : (s.fbClear).mem = s.mem := rfl
@[simp] theorem State.fbClear_halted : (s.fbClear).halted = s.halted := rfl
@[simp] theorem State.fbClear_last : (s.fbClear).last = s.last := rfl
@[simp] theorem State.fbClear_draws : (s.fbClear).draws = s.draws := rfl
@[simp] theorem State.fbClear_readV (x' : Reg) : (s.fbClear).readV x' = s.readV x' := rfl
@[simp] theorem State.fbClear_slot (j : Fin 16) : (s.fbClear).slot j = s.slot j := rfl
@[simp] theorem State.fbClear_key (k' : Fin 16) : (s.fbClear).key k' = s.key k' := rfl

/-! ### fbDrawPixel -/

@[simp] theorem State.fbDrawPixel_v (px : Fin 64) (py : Fin 32) : ((s.fbDrawPixel px py).2).v = s.v := rfl
@[simp] theorem State.fbDrawPixel_i (px : Fin 64) (py : Fin 32) : ((s.fbDrawPixel px py).2).i = s.i := rfl
@[simp] theorem State.fbDrawPixel_pc (px : Fin 64) (py : Fin 32) : ((s.fbDrawPixel px py).2).pc = s.pc := rfl
@[simp] theorem State.fbDrawPixel_stack (px : Fin 64) (py : Fin 32) : ((s.fbDrawPixel px py).2).stack = s.stack := rfl
@[simp] theorem State.fbDrawPixel_sp (px : Fin 64) (py : Fin 32) : ((s.fbDrawPixel px py).2).sp = s.sp := rfl
@[simp] theorem State.fbDrawPixel_dt (px : Fin 64) (py : Fin 32) : ((s.fbDrawPixel px py).2).dt = s.dt := rfl
@[simp] theorem State.fbDrawPixel_st (px : Fin 64) (py : Fin 32) : ((s.fbDrawPixel px py).2).st = s.st := rfl
@[simp] theorem State.fbDrawPixel_keys (px : Fin 64) (py : Fin 32) : ((s.fbDrawPixel px py).2).keys = s.keys := rfl
@[simp] theorem State.fbDrawPixel_fb (px : Fin 64) (py : Fin 32) : ((s.fbDrawPixel px py).2).fb = s.fb.set py ((s.fb[py]).set px (!s.cell px py)) := rfl
@[simp] theorem State.fbDrawPixel_sig (px : Fin 64) (py : Fin 32) : ((s.fbDrawPixel px py).2).sig = .drew := rfl
@[simp] theorem State.fbDrawPixel_mem (px : Fin 64) (py : Fin 32) : ((s.fbDrawPixel px py).2).mem = s.mem := rfl
@[simp] theorem State.fbDrawPixel_halted (px : Fin 64) (py : Fin 32) : ((s.fbDrawPixel px py).2).halted = s.halted := rfl
@[simp] theorem State.fbDrawPixel_last (px : Fin 64) (py : Fin 32) : ((s.fbDrawPixel px py).2).last = s.last := rfl
@[simp] theorem State.fbDrawPixel_draws (px : Fin 64) (py : Fin 32) : ((s.fbDrawPixel px py).2).draws = s.draws := rfl
@[simp] theorem State.fbDrawPixel_readV (px : Fin 64) (py : Fin 32) (x' : Reg) : ((s.fbDrawPixel px py).2).readV x' = s.readV x' := rfl
@[simp] theorem State.fbDrawPixel_slot (px : Fin 64) (py : Fin 32) (j : Fin 16) : ((s.fbDrawPixel px py).2).slot j = s.slot j := rfl
@[simp] theorem State.fbDrawPixel_key (px : Fin 64) (py : Fin 32) (k' : Fin 16) : ((s.fbDrawPixel px py).2).key k' = s.key k' := rfl

/-! ### drawRand -/

@[simp] theorem State.drawRand_v : (s.drawRand.2).v = s.v := rfl
@[simp] theorem State.drawRand_i : (s.drawRand.2).i = s.i := rfl
@[simp] theorem State.drawRand_pc : (s.drawRand.2).pc = s.pc := rfl
@[simp] theorem State.drawRand_stack : (s.drawRand.2).stack = s.stack := rfl
@[simp] theorem State.drawRand_sp : (s.drawRand.2).sp = s.sp := rfl
@[simp] theorem State.drawRand_dt : (s.drawRand.2).dt = s.dt := rfl
@[simp] theorem State.drawRand_st : (s.drawRand.2).st = s.st := rfl
@[simp] theorem State.drawRand_keys : (s.drawRand.2).keys = s.keys := rfl
@[simp] theorem State.drawRand_fb : (s.drawRand.2).fb = s.fb := rfl
@[simp] theorem State.drawRand_sig : (s.drawRand.2).sig = s.sig := rfl
@[simp] theorem State.drawRand_mem : (s.drawRand.2).mem = s.mem := rfl
@[simp] theorem State.drawRand_halted : (s.drawRand.2).halted = s.halted := rfl
@[simp] theorem State.drawRand_last : (s.drawRand.2).last = s.last := rfl
@[simp] theorem State.drawRand_draws : (s.drawRand.2).draws = s.draws + 1 := rfl
@[simp] theorem State.drawRand_readV (x' : Reg) : (s.drawRand.2).readV x' = s.readV x' := rfl
@[simp] theorem State.drawRand_slot (j : Fin 16) : (s.drawRand.2).slot j = s.slot j := rfl
@[simp] theorem State.drawRand_key (k' : Fin 16) : (s.drawRand.2).key k' = s.key k' := rfl
@[simp] theorem State.drawRand_cell (cx : Fin 64) (cy : Fin 32) : (s.drawRand.2).cell cx cy = s.cell cx cy := rfl

/-! ### popReturn -/

@[simp] theorem State.popReturn_v : (s.popReturn.2).v = s.v := by unfold State.popReturn; dsimp only; split <;> rfl
@[simp] theorem State.popReturn_i : (s.popReturn.2).i = s.i := by unfold State.popReturn; dsimp only; split <;> rfl
@[simp] theorem State.popReturn_pc : (s.popReturn.2).pc = s.pc := by unfold State.popReturn; dsimp only; split <;> rfl
@[simp] theorem State.popReturn_stack : (s.popReturn.2).stack = s.stack := by unfold State.popReturn; dsimp only; split <;> rfl
@[simp] theorem State.popReturn_dt : (s.popReturn.2).dt = s.dt := by unfold State.popReturn; dsimp only; split <;> rfl
@[simp] theorem State.popReturn_st : (s.popReturn.2).st = s.st := by unfold State.popReturn; dsimp only; split <;> rfl
@[simp] theorem State.popReturn_keys : (s.popReturn.2).keys = s.keys := by unfold State.popReturn; dsimp only; split <;> rfl
@[simp] theorem State.popReturn_fb : (s.popReturn.2).fb = s.fb := by unfold State.popReturn; dsimp only; split <;> rfl
@[simp] theorem State.popReturn_sig : (s.popReturn.2).sig = s.sig := by unfold State.popReturn; dsimp only; split <;> rfl
@[simp] theorem State.popReturn_mem : (s.popReturn.2).mem = s.mem := by unfold State.popReturn; dsimp only; split <;> rfl
@[simp] theorem State.popReturn_halted : (s.popReturn.2).halted = s.halted := by unfold State.popReturn; dsimp only; split <;> rfl
@[simp] theorem State.popReturn_last : (s.popReturn.2).last = s.last := by unfold State.popReturn; dsimp only; split <;> rfl
@[simp] theorem State.popReturn_draws : (s.popReturn.2).draws = s.draws := by unfold State.popReturn; dsimp only; split <;> rfl
@[simp] theorem State.popReturn_readV (x' : Reg) : (s.popReturn.2).readV x' = s.readV x' := by unfold State.popReturn; dsimp only; split <;> rfl
@[simp] theorem State.popReturn_slot (j : Fin 16) : (s.popReturn.2).slot j = s.slot j := by unfold State.popReturn; dsimp only; split <;> rfl
@[simp] theorem State.popReturn_key (k' : Fin 16) : (s.popReturn.2).key k' = s.key k' := by unfold State.popReturn; dsimp only; split <;> rfl
@[simp] theorem State.popReturn_cell (cx : Fin 64) (cy : Fin 32) : (s.popReturn.2).cell cx cy = s.cell cx cy := by unfold State.popReturn; dsimp only; split <;> rfl

/-! ### plot -/

@[simp] theorem State.plot_i (p : Fin 64 × Fin 32) : (s.plot p).i = s.i := by unfold State.plot; split <;> rfl
@[simp] theorem State.plot_pc (p : Fin 64 × Fin 32) : (s.plot p).pc = s.pc := by unfold State.plot; split <;> rfl
@[simp] theorem State.plot_stack (p : Fin 64 × Fin 32) : (s.plot p).stack = s.stack := by unfold State.plot; split <;> rfl
@[simp] theorem State.plot_sp (p : Fin 64 × Fin 32) : (s.plot p).sp = s.sp := by unfold State.plot; split <;> rfl
@[simp] theorem State.plot_dt (p : Fin 64 × Fin 32) : (s.plot p).dt = s.dt := by unfold State.plot; split <;> rfl
@[simp] theorem State.plot_st (p : Fin 64 × Fin 32) : (s.plot p).st = s.st := by unfold State.plot; split <;> rfl
@[simp] theorem State.plot_keys (p : Fin 64 × Fin 32) : (s.plot p).keys = s.keys := by unfold State.plot; split <;> rfl
@[simp] theorem State.plot_fb (p : Fin 64 × Fin 32) : (s.plot p).fb = s.fb.set p.2 ((s.fb[p.2]).set p.1 (!s.cell p.1 p.2)) := by unfold State.plot; split <;> rfl
@[simp] theorem State.plot_sig (p : Fin 64 × Fin 32) : (s.plot p).sig = .drew := by unfold State.plot; split <;> rfl
@[simp] theorem State.plot_mem (p : Fin 64 × Fin 32) : (s.plot p).mem = s.mem := by unfold State.plot; split <;> rfl
@[simp] theorem State.plot_halted (p : Fin 64 × Fin 32) : (s.plot p).halted = s.halted := by unfold State.plot; split <;> rfl
@[simp] theorem State.plot_last (p : Fin 64 × Fin 32) : (s.plot p).last = s.last := by unfold State.plot; split <;> rfl
@[simp] theorem State.plot_draws (p : Fin 64 × Fin 32) : (s.plot p).draws = s.draws := by unfold State.plot; split <;> rfl
@[simp] theorem State.plot_slot (p : Fin 64 × Fin 32) (j : Fin 16) : (s.plot p).slot j = s.slot j := by unfold State.plot; split <;> rfl
@[simp] theorem State.plot_key (p : Fin 64 × Fin 32) (k' : Fin 16) : (s.plot p).key k' = s.key k' := by unfold State.plot; split <;> rfl

/-! ### record -/

@[simp] theorem State.record_v (ins : Instr) (op : Word) : (s.record ins op).v = s.v := rfl
@[simp] theorem State.record_i (ins : Instr) (op : Word) : (s.record ins op).i = s.i := rfl
@[simp] theorem State.record_pc (ins : Instr) (op : Word) : (s.record ins op).pc = s.pc := rfl
@[simp] theorem State.record_stack (ins : Instr) (op : Word) : (s.record ins op).stack = s.stack := rfl
@[simp] theorem State.record_sp (ins : Instr) (op : Word) : (s.record ins op).sp = s.sp := rfl
@[simp] theorem State.record_dt (ins : Instr) (op : Word) : (s.record ins op).dt = s.dt := rfl
@[simp] theorem State.record_st (ins : Instr) (op : Word) : (s.record ins op).st = s.st := rfl
@[simp] theorem State.record_keys (ins : Instr) (op : Word) : (s.record ins op).keys = s.keys := rfl
@[simp] theorem State.record_fb (ins : Instr) (op : Word) : (s.record ins op).fb = s.fb := rfl
@[simp] theorem State.record_sig (ins : Instr) (op : Word) : (s.record ins op).sig = s.sig := rfl
@[simp] theorem State.record_mem (ins : Instr) (op : Word) : (s.record ins op).mem = s.mem := rfl
@[simp] theorem State.record_halted (ins : Instr) (op : Word) : (s.record ins op).halted = s.halted := rfl
@[simp] theorem State.record_last (ins : Instr) (op : Word) : (s.record ins op).last = some { id := ins.mnemonic, opcode := op } := rfl
@[simp] theorem State.record_draws (ins : Instr) (op : Word) : (s.record ins op).draws = s.draws := rfl
@[simp] theorem State.record_readV (ins : Instr) (op : Word) (x' : Reg) : (s.record ins op).readV x' = s.readV x' := rfl
@[simp] theorem State.record_slot (ins : Instr) (op : Word) (j : Fin 16) : (s.record ins op).slot j = s.slot j := rfl
@[simp] theorem State.record_key (ins : Instr) (op : Word) (k' : Fin 16) : (s.record ins op).key k' = s.key k' := rfl
@[simp] theorem State.record_cell (ins : Instr) (op : Word) (cx : Fin 64) (cy : Fin 32) : (s.record ins op).cell cx cy = s.cell cx cy := rfl

/-! ### setKey -/

@[simp] theorem State.setKey_v (k : Fin 16) (level : Bool) : (s.setKey k level).v = s.v := rfl
@[simp] theorem State.setKey_i (k : Fin 16) (level : Bool) : (s.setKey k level).i = s.i := rfl
@[simp] theorem State.setKey_pc (k : Fin 16) (level : Bool) : (s.setKey k level).pc = s.pc := rfl
@[simp] theorem State.setKey_stack (k : Fin 16) (level : Bool) : (s.setKey k level).stack = s.stack := rfl
@[simp] theorem State.setKey_sp (k : Fin 16) (level : Bool) : (s.setKey k level).sp = s.sp := rfl
@[simp] theorem State.setKey_dt (k : Fin 16) (level : Bool) : (s.setKey k level).dt = s.dt := rfl
@[simp] theorem State.setKey_st (k : Fin 16) (level : Bool) : (s.setKey k level).st = s.st := rfl
@[simp] theorem State.setKey_keys (k : Fin 16) (level : Bool) : (s.setKey k level).keys = s.keys.set k level := rfl
@[simp] theorem State.setKey_fb (k : Fin 16) (level : Bool) : (s.setKey k level).fb = s.fb := rfl
@[simp] theorem State.setKey_sig (k : Fin 16) (level : Bool) : (s.setKey k level).sig = s.sig := rfl
@[simp] theorem State.setKey_mem (k : Fin 16) (level : Bool) : (s.setKey k level).mem = s.mem := rfl
@[simp] theorem State.setKey_halted (k : Fin 16) (level : Bool) : (s.setKey k level).halted = s.halted := rfl
@[simp] theorem State.setKey_last (k : Fin 16) (level : Bool) : (s.setKey k level).last = s.last := rfl
@[simp] theorem State.setKey_draws (k : Fin 16) (level : Bool) : (s.setKey k level).draws = s.draws := rfl
@[simp] theorem State.setKey_readV (k : Fin 16) (level : Bool) (x' : Reg) : (s.setKey k level).readV x' = s.readV x' := rfl
@[simp] theorem State.setKey_slot (k : Fin 16) (level : Bool) (j : Fin 16) : (s.setKey k level).slot j = s.slot j := rfl
@[simp] theorem State.setKey_cell (k : Fin 16) (level : Bool) (cx : Fin 64) (cy : Fin 32) : (s.setKey k level).cell cx cy = s.cell cx cy := rfl

/-! ### tick -/

@[simp] theorem State.tick_v : (s.tick).v = s.v := rfl
@[simp] theorem State.tick_i : (s.tick).i = s.i := rfl
@[simp] theorem State.tick_pc : (s.tick).pc = s.pc := rfl
@[simp] theorem State.tick_stack : (s.tick).stack = s.stack := rfl
@[simp] theorem State.tick_sp : (s.tick).sp = s.sp := rfl
@[simp] theorem State.tick_dt : (s.tick).dt = tickDown s.dt := rfl
@[simp] theorem State.tick_st : (s.tick).st = tickDown s.st := rfl
@[simp] theorem State.tick_keys : (s.tick).keys = s.keys := rfl
@[simp] theorem State.tick_fb : (s.tick).fb = s.fb := rfl
@[simp] theorem State.tick_sig : (s.tick).sig = s.sig := rfl
@[simp] theorem State.tick_mem : (s.tick).mem = s.mem := rfl
@[simp] theorem State.tick_halted : (s.tick).halted = s.halted := rfl
@[simp] theorem State.tick_last : (s.tick).last = s.last := rfl
@[simp] theorem State.tick_draws : (s.tick).draws = s.draws := rfl
@[simp] theorem State.tick_readV (x' : Reg) : (s.tick).readV x' = s.readV x' := rfl
@[simp] theorem State.tick_slot (j : Fin 16) : (s.tick).slot j = s.slot j := rfl
@[simp] theorem State.tick_key (k' : Fin 16) : (s.tick).key k' = s.key k' := rfl
@[simp] theorem State.tick_cell (cx : Fin 64) (cy : Fin 32) : (s.tick).cell cx cy = s.cell cx cy := rfl

/-! ### halt -/

@[simp] theorem State.halt_halted (cause : Fatal) : (s.halt cause).halted = some cause := rfl
/-! ### what the changed fields read as -/

@[simp] theorem State.resolve_next_pc : (s.resolve .next).pc = s.pc + 2 := rfl
@[simp] theorem State.resolve_skip_pc : (s.resolve .skip).pc = s.pc + 4 := rfl
@[simp] theorem State.resolve_jump_pc (w : Word) : (s.resolve (.jump w)).pc = w := rfl

theorem State.resolve_skipIf_pc (c : Bool) : (s.resolve (skipIf c)).pc = if c then s.pc + 4 else s.pc + 2 := by
  cases c <;> rfl

theorem State.readV_writeV (x y : Reg) (b : Byte) : (s.writeV x b).readV y = if x = y then b else s.readV y := by
  simp [State.readV, State.writeV, Vector.getElem_set, Fin.ext_iff]

@[simp] theorem State.readV_writeV_same (x : Reg) (b : Byte) : (s.writeV x b).readV x = b := by
  simp [State.readV_writeV]

theorem State.readV_writeV_ne {x y : Reg} (h : y ≠ x) (b : Byte) : (s.writeV x b).readV y = s.readV y := by
  rw [State.readV_writeV, if_neg (Ne.symm h)]

theorem State.readV_writeFlag (c : Bool) (y : Reg) :
    (s.writeFlag c).readV y = if flagReg = y then flagByte c else s.readV y := State.readV_writeV s flagReg y _

@[simp] theorem State.readV_writeFlag_same (c : Bool) : (s.writeFlag c).readV flagReg = flagByte c := by
  simp [State.readV_writeFlag]

theorem State.readV_writeFlag_ne {y : Reg} (h : y ≠ flagReg) (c : Bool) : (s.writeFlag c).readV y = s.readV y := by
  rw [State.readV_writeFlag, if_neg (Ne.symm h)]

@[simp] theorem flagByte_true : flagByte true = 1 := rfl
@[simp] theorem flagByte_false : flagByte false = 0 := rfl

theorem State.key_setKey (k j : Fin 16) (level : Bool) :
    (s.setKey k level).key j = if k = j then level else s.key j := by
  simp [State.key, State.setKey, Vector.getElem_set, Fin.ext_iff]

@[simp] theorem State.cell_fbClear (x : Fin 64) (y : Fin 32) : s.fbClear.cell x y = false := by
  simp [State.cell, Grid.clear]

theorem State.cell_fbDrawPixel (px x : Fin 64) (py y : Fin 32) :
    (s.fbDrawPixel px py).2.cell x y = (s.cell x y ^^ decide (px = x ∧ py = y)) := by
  simp only [State.cell, State.fbDrawPixel, Fin.getElem_fin, Vector.getElem_set]
  by_cases hy : py = y
  · subst hy
    by_cases hx : px = x
    · subst hx; simp
    · have : ¬ px.val = x.val := fun h => hx (Fin.ext h)
      simp [hx, this]
  · have : ¬ py.val = y.val := fun h => hy (Fin.ext h)
    simp [hy, this]

@[simp] theorem State.fbDrawPixel_old (px : Fin 64) (py : Fin 32) : (s.fbDrawPixel px py).1 = s.cell px py := rfl

theorem State.plot_cell (p : Fin 64 × Fin 32) (x : Fin 64) (y : Fin 32) :
    (s.plot p).cell x y = (s.cell x y ^^ decide (p = (x, y))) := by
  have h : (s.plot p).cell x y = (s.fbDrawPixel p.1 p.2).2.cell x y := by unfold State.plot; split <;> rfl
  simp [h, State.cell_fbDrawPixel, Prod.ext_iff]

theorem State.plot_readV (p : Fin 64 × Fin 32) (x : Reg) :
    (s.plot p).readV x = if s.cell p.1 p.2 = true ∧ flagReg = x then 1 else s.readV x := by
  unfold State.plot
  by_cases h : s.cell p.1 p.2 = true <;> simp [h, State.readV_writeFlag]

/-- Two states with the same fields are the same. -/
theorem State.ext_fields {s t : State} (hv : s.v = t.v) (hi : s.i = t.i) (hpc : s.pc = t.pc)
    (hstack : s.stack = t.stack) (hsp : s.sp = t.sp) (hdt : s.dt = t.dt) (hst : s.st = t.st)
    (hkeys : s.keys = t.keys) (hfb : s.fb = t.fb) (hsig : s.sig = t.sig) (hmem : s.mem = t.mem)
    (hhalted : s.halted = t.halted) (hlast : s.last = t.last) (hdraws : s.draws = t.draws) : s = t := by
  cases s; cases t; simp_all

end Sys2Proof.Machine
end

