-- ==== Sys2Proof/Laws/Memory.lean ====
section
/-! SUPPORT. Memory: a read after a write, the canonical form, and what the block operations do. -/

namespace Sys2Proof.Machine

/-! ### Cells -/

/-- Every address listed lies above `a`. -/
def Above (a : Nat) (cs : List Host.Cell) : Prop := ∀ c ∈ cs, a < c.1

/-- Strictly rising addresses. -/
def Rising (cs : List Host.Cell) : Prop := cs.Pairwise fun c d => c.1 < d.1

theorem lookupCell_of_above {a : Nat} {cs : List Host.Cell} (h : Above a cs) : lookupCell a cs = none := by
  induction cs with
  | nil => rfl
  | cons c cs ih =>
    have hc : a < c.1 := h c (by simp)
    simp only [lookupCell, if_neg (Nat.ne_of_gt hc)]
    exact ih fun d hd => h d (by simp [hd])

theorem lookupCell_mem {a : Nat} {b : Byte} {cs : List Host.Cell} (h : lookupCell a cs = some b) : (a, b) ∈ cs := by
  induction cs with
  | nil => simp [lookupCell] at h
  | cons c cs ih =>
    unfold lookupCell at h
    split at h
    · rename_i hc; cases h; simp [← hc]
    · simp [ih h]

theorem lookupCell_of_mem {c : Host.Cell} {cs : List Host.Cell} (hr : Rising cs) (h : c ∈ cs) :
    lookupCell c.1 cs = some c.2 := by
  induction cs with
  | nil => simp at h
  | cons d cs ih =>
    obtain ⟨hd, hr'⟩ := List.pairwise_cons.1 hr
    rcases List.mem_cons.1 h with rfl | h
    · simp [lookupCell]
    · have hne : d.1 ≠ c.1 := Nat.ne_of_lt (hd c h)
      simp only [lookupCell, if_neg hne]
      exact ih hr' h

/-- Inserting at `a` changes what is listed at `a` only; there it lists `b`, or nothing where `b` is the background. -/
theorem lookupCell_insertCell (bg : Byte) (a : Nat) (b : Byte) (k : Nat) {cs : List Host.Cell} (hr : Rising cs) :
    lookupCell k (insertCell bg a b cs) =
      if k = a then (if b = bg then none else some b) else lookupCell k cs := by
  induction cs with
  | nil => simp only [insertCell]; split <;> simp_all [lookupCell, eq_comm]
  | cons c cs ih =>
    obtain ⟨hc, hr'⟩ := List.pairwise_cons.1 hr
    unfold insertCell
    split
    · rename_i hlt
      simp only [lookupCell, ih hr']
      by_cases hk : k = a
      · subst hk; simp [Nat.ne_of_lt hlt]
      · simp [hk]
    · rename_i hge
      dsimp only
      by_cases hca : c.1 = a
      · have habove : Above a cs := fun d hd => hca ▸ hc d hd
        rw [if_pos hca]
        by_cases hk : k = a
        · subst hk; split <;> simp_all [lookupCell, lookupCell_of_above habove]
        · have : c.1 ≠ k := fun h => hk (h ▸ hca)
          split <;> simp_all [lookupCell, eq_comm]
      · have habove : Above a (c :: cs) := by
          intro d hd
          rcases List.mem_cons.1 hd with rfl | hd
          · omega
          · exact Nat.lt_trans (by omega) (hc d hd)
        rw [if_neg hca]
        by_cases hk : k = a
        · subst hk
          have hn := lookupCell_of_above habove
          by_cases hb : b = bg
          · simp only [hb, if_true, hn]
          · simp [hb, lookupCell]
        · have hak : ¬ a = k := fun h => hk h.symm
          by_cases hb : b = bg <;> simp [hb, hk, hak, lookupCell]

theorem mem_insertCell {bg : Byte} {a : Nat} {b : Byte} {d : Host.Cell} {cs : List Host.Cell}
    (h : d ∈ insertCell bg a b cs) : d ∈ cs ∨ (d = (a, b) ∧ b ≠ bg) := by
  induction cs with
  | nil => simp only [insertCell] at h; split at h <;> simp_all
  | cons c cs ih =>
    unfold insertCell at h
    split at h
    · rcases List.mem_cons.1 h with rfl | h
      · simp
      · rcases ih h with h | h <;> simp [h]
    · dsimp only at h
      split at h <;> split at h <;> simp_all <;> tauto

theorem rising_insertCell (bg : Byte) (a : Nat) (b : Byte) {cs : List Host.Cell} (hr : Rising cs) :
    Rising (insertCell bg a b cs) := by
  induction cs with
  | nil => simp only [insertCell]; split <;> simp [Rising]
  | cons c cs ih =>
    obtain ⟨hc, hr'⟩ := List.pairwise_cons.1 hr
    unfold insertCell
    split
    · rename_i hlt
      refine List.pairwise_cons.2 ⟨fun d hd => ?_, ih hr'⟩
      rcases mem_insertCell hd with hd | ⟨rfl, -⟩
      · exact hc d hd
      · exact hlt
    · rename_i hge
      dsimp only
      by_cases hca : c.1 = a
      · rw [if_pos hca]
        split
        · exact hr'
        · exact List.pairwise_cons.2 ⟨fun d hd => hca ▸ hc d hd, hr'⟩
      · rw [if_neg hca]
        split
        · exact hr
        · refine List.pairwise_cons.2 ⟨fun d hd => ?_, hr⟩
          rcases List.mem_cons.1 hd with rfl | hd
          · show a < d.1; omega
          · show a < d.1; exact Nat.lt_trans (by omega) (hc d hd)

/-! ### The canonical form -/

theorem Memory.wf_iff (m : Memory) :
    m.wf = true ↔ Rising m.cells ∧ ∀ c ∈ m.cells, c.1 ≤ 0xFFF ∧ c.2 ≠ Memory.unlisted m.font c.1 := by
  simp only [Memory.wf, Rising, Bool.and_eq_true, decide_eq_true_eq, List.all_eq_true]

theorem Memory.wf_rising {m : Memory} (h : m.wf = true) : Rising m.cells := ((Memory.wf_iff m).1 h).1

@[simp] theorem Memory.write_font (m : Memory) (a : Nat) (b : Byte) : (m.write a b).font = m.font := rfl

/-- A write keeps the canonical form. -/
theorem Memory.wf_write {m : Memory} (h : m.wf = true) {a : Nat} (ha : a ≤ 0xFFF) (b : Byte) : (m.write a b).wf = true := by
  rw [Memory.wf_iff] at h ⊢
  refine ⟨rising_insertCell _ _ _ h.1, fun c hc => ?_⟩
  rcases mem_insertCell hc with hc | ⟨rfl, hb⟩
  · exact h.2 c hc
  · exact ⟨ha, hb⟩

/-- A read after a write: the byte written at that address, and the byte read before at every other. -/
theorem Memory.read_write {m : Memory} (h : m.wf = true) (a : Nat) (b : Byte) (k : Nat) :
    (m.write a b).read k = if k = a then b else m.read k := by
  simp only [Memory.read, Memory.write, lookupCell_insertCell _ _ _ _ (Memory.wf_rising h)]
  by_cases hk : k = a
  · subst hk
    by_cases hb : b = Memory.unlisted m.font k <;> simp [hb]
  · simp [hk]

/-- Memories in canonical form with one background that read the same everywhere are the same data. -/
theorem Memory.eq_of_read {m n : Memory} (hm : m.wf = true) (hn : n.wf = true) (hfont : m.font = n.font)
    (h : ∀ a, m.read a = n.read a) : m = n := by
  have key : ∀ {m n : Memory}, m.wf = true → n.wf = true → m.font = n.font → (∀ a, m.read a = n.read a) →
      ∀ c ∈ m.cells, c ∈ n.cells := by
    intro m n hm hn hfont h c hc
    have hl := lookupCell_of_mem (Memory.wf_rising hm) hc
    have hne := (((Memory.wf_iff m).1 hm).2 c hc).2
    have hr : m.read c.1 = c.2 := by simp [Memory.read, hl]
    have hr' : n.read c.1 = c.2 := (h c.1) ▸ hr
    cases hn' : lookupCell c.1 n.cells with
    | none => simp [Memory.read, hn', ← hfont] at hr'; exact absurd hr'.symm hne
    | some b =>
      have : b = c.2 := by simpa [Memory.read, hn'] using hr'
      rw [this] at hn'
      exact lookupCell_mem hn'
  have hcells : m.cells = n.cells := by
    refine List.Pairwise.eq_of_mem_iff (Memory.wf_rising hm) (Memory.wf_rising hn) fun c =>
      ⟨key hm hn hfont h c, key hn hm hfont.symm (fun a => (h a).symm) c⟩
  cases m; cases n; simp_all

/-! ### Blocks -/

@[simp] theorem Memory.writeBytes_font (base : Nat) (bs : List Byte) (m : Memory) :
    (Memory.writeBytes base bs m).font = m.font := by
  induction bs generalizing base m with
  | nil => rfl
  | cons b bs ih => simp [Memory.writeBytes, ih]

theorem Memory.wf_writeBytes {m : Memory} (h : m.wf = true) {base : Nat} {bs : List Byte}
    (hb : base + bs.length ≤ 0x1000) : (Memory.writeBytes base bs m).wf = true := by
  induction bs generalizing base m with
  | nil => exact h
  | cons b bs ih =>
    simp only [List.length_cons] at hb
    exact ih (Memory.wf_write h (by omega) b) (by omega)

/-- What a block of writes leaves: the bytes in order from `base`, and every other address as before. -/
theorem Memory.read_writeBytes {m : Memory} (h : m.wf = true) {base : Nat} {bs : List Byte}
    (hb : base + bs.length ≤ 0x1000) (k : Nat) :
    (Memory.writeBytes base bs m).read k = if base ≤ k then (bs[k - base]?).getD (m.read k) else m.read k := by
  induction bs generalizing base m with
  | nil => simp [Memory.writeBytes]
  | cons b bs ih =>
    simp only [List.length_cons] at hb
    have hw := Memory.wf_write h (a := base) (by omega) b
    rw [Memory.writeBytes, ih hw (by omega), Memory.read_write h]
    by_cases h1 : base + 1 ≤ k
    · obtain ⟨j, rfl⟩ : ∃ j, k = base + 1 + j := ⟨k - (base + 1), by omega⟩
      have e1 : base + 1 + j - (base + 1) = j := by omega
      have e2 : base + 1 + j - base = j + 1 := by omega
      have e3 : ¬ base + 1 + j = base := by omega
      have e4 : base ≤ base + 1 + j := by omega
      simp [e1, e2, e3, e4]
    · by_cases h2 : k = base
      · subst h2; simp
      · have h3 : ¬ base ≤ k := by omega
        simp [h1, h2, h3]

@[simp] theorem Memory.readBytes_length (m : Memory) (base n : Nat) : (m.readBytes base n).length = n := by
  simp [Memory.readBytes]

theorem Memory.readBytes_getElem? (m : Memory) (base n k : Nat) :
    (m.readBytes base n)[k]? = if k < n then some (m.read (base + k)) else none := by
  unfold Memory.readBytes
  by_cases h : k < n <;> simp [h]

/-! ### ROM load -/

theorem romCells_above (base : Nat) (rom : List Byte) : ∀ c ∈ romCells base rom, base ≤ c.1 ∧ c.1 < base + rom.length ∧ c.2 ≠ 0 := by
  induction rom generalizing base with
  | nil => simp [romCells]
  | cons b bs ih =>
    intro c hc
    unfold romCells at hc
    split at hc
    · have := ih (base + 1) c hc
      simp only [List.length_cons]; refine ⟨?_, ?_, this.2.2⟩ <;> omega
    · rename_i hb
      rcases List.mem_cons.1 hc with rfl | hc
      · simp only [List.length_cons]; exact ⟨Nat.le_refl _, by omega, hb⟩
      · have := ih (base + 1) c hc
        simp only [List.length_cons]; refine ⟨?_, ?_, this.2.2⟩ <;> omega

theorem rising_romCells (base : Nat) (rom : List Byte) : Rising (romCells base rom) := by
  induction rom generalizing base with
  | nil => simp [romCells, Rising]
  | cons b bs ih =>
    unfold romCells
    split
    · exact ih _
    · refine List.pairwise_cons.2 ⟨fun d hd => ?_, ih _⟩
      have := (romCells_above _ _ d hd).1
      show base < d.1; omega

theorem lookupCell_romCells (base : Nat) (rom : List Byte) (k : Nat) :
    (lookupCell k (romCells base rom)).getD 0 = if base ≤ k then (rom[k - base]?).getD 0 else 0 := by
  induction rom generalizing base with
  | nil => simp [romCells, lookupCell]
  | cons b bs ih =>
    unfold romCells
    by_cases hk : k = base
    · subst hk
      have hab : Above k (romCells (k + 1) bs) := fun c hc => by have := (romCells_above _ _ c hc).1; omega
      by_cases hb : b = 0
      · rw [if_pos hb, lookupCell_of_above hab]; simp [hb]
      · rw [if_neg hb]; simp [lookupCell]
    · have hne : ¬ base = k := fun h => hk h.symm
      have hmid : (lookupCell k (if b = 0 then romCells (base + 1) bs else (base, b) :: romCells (base + 1) bs)).getD 0
          = (lookupCell k (romCells (base + 1) bs)).getD 0 := by
        split
        · rfl
        · simp [lookupCell, hne]
      rw [hmid, ih]
      by_cases h1 : base + 1 ≤ k
      · obtain ⟨j, rfl⟩ : ∃ j, k = base + 1 + j := ⟨k - (base + 1), by omega⟩
        have e1 : base + 1 + j - (base + 1) = j := by omega
        have e2 : base + 1 + j - base = j + 1 := by omega
        have e4 : base ≤ base + 1 + j := by omega
        simp [e1, e2, e4]
      · have h3 : ¬ base ≤ k := by omega
        simp [h1, h3]

theorem Memory.unlisted_above (font : Vector Byte 80) {a : Nat} (h : 80 ≤ a) : Memory.unlisted font a = 0 := by
  have : font[a]? = none := by simp; omega
  simp [Memory.unlisted, this]

theorem lookupCell_append (k : Nat) (cs ds : List Host.Cell) :
    lookupCell k (cs ++ ds) = (lookupCell k cs).or (lookupCell k ds) := by
  induction cs with
  | nil => simp [lookupCell]
  | cons c cs ih => simp only [List.cons_append, lookupCell]; split <;> simp_all

theorem lookupCell_filter (k : Nat) (q : Nat → Bool) (cs : List Host.Cell) :
    lookupCell k (cs.filter fun c => q c.1) = if q k then lookupCell k cs else none := by
  induction cs with
  | nil => simp [lookupCell]
  | cons c cs ih =>
    by_cases hc : c.1 = k
    · by_cases hq : q k = true
      · simp [lookupCell, hc, hq]
      · rw [List.filter_cons_of_neg (by simpa [hc] using hq), ih]; simp [hq]
    · by_cases hq : q c.1 = true
      · simp only [List.filter_cons, hq, if_true, lookupCell, if_neg hc, ih]
      · rw [List.filter_cons_of_neg (by simpa using hq), ih]; simp only [lookupCell, if_neg hc]

/-- What memory holds after ROM load (R342). -/
theorem Memory.read_load (m : Memory) (rom : List Byte) (k : Nat) :
    (m.load rom).read k = if k < 0x200 then m.read k else (rom[k - 0x200]?).getD 0 := by
  have hl : lookupCell k (m.load rom).cells =
      (if k < 0x200 then lookupCell k m.cells else none).or (lookupCell k (romCells 0x200 rom)) := by
    have := lookupCell_filter k (fun a => decide (a < 0x200)) m.cells
    simp only [Memory.load, lookupCell_append]
    rw [this]; simp
  by_cases hk : k < 0x200
  · have hab : Above k (romCells 0x200 rom) := fun c hc => by have := (romCells_above _ _ c hc).1; omega
    simp only [Memory.read, hl, lookupCell_of_above hab, hk, if_true, Option.or_none]
    rfl
  · have h0 : Memory.unlisted (m.load rom).font k = 0 := Memory.unlisted_above _ (by omega)
    have := lookupCell_romCells 0x200 rom k
    simp only [Memory.read, hl, hk, if_false, Option.none_or, h0, this]
    simp [Nat.le_of_not_lt hk]

theorem Memory.wf_load {m : Memory} (h : m.wf = true) {rom : List Byte} (hr : rom.length ≤ 3584) :
    (m.load rom).wf = true := by
  rw [Memory.wf_iff] at h ⊢
  refine ⟨?_, fun c hc => ?_⟩
  · refine List.pairwise_append.2 ⟨h.1.filter _, rising_romCells _ _, fun c hc d hd => ?_⟩
    have h1 : c.1 < 0x200 := by simpa using (List.mem_filter.1 hc).2
    have h2 := (romCells_above _ _ d hd).1
    omega
  · rcases List.mem_append.1 hc with hc | hc
    · exact h.2 c (List.mem_filter.1 hc).1
    · obtain ⟨h1, h2, h3⟩ := romCells_above _ _ c hc
      refine ⟨by omega, ?_⟩
      rw [Memory.unlisted_above _ (by omega)]
      exact h3

/-- A memory that lists nothing is in canonical form. -/
theorem Memory.wf_empty (font : Vector Byte 80) : Memory.wf { font := font, cells := [] } = true := by
  simp [Memory.wf]

end Sys2Proof.Machine
end

