-- ==== Sys2Proof/Laws/Ops.lean ====
section
/-! SUPPORT. One lemma per shared operation that says everything it can do; proofs about meanings cite these. -/

namespace Sys2Proof.Machine

/-! ### Results -/

@[simp] theorem attempt_ok {α : Type} (a : α) (k : α → Result) : attempt (.ok a) k = k a := rfl

@[simp] theorem attempt_error {α : Type} (cause : Fatal) (k : α → Result) :
    attempt (.error cause : Except Fatal α) k = .fault (.fatal cause) := rfl

theorem attempt_of_ok {α : Type} {r : Except Fatal α} {a : α} (h : r = .ok a) (k : α → Result) :
    attempt r k = k a := by rw [h]; rfl

theorem attempt_of_error {α : Type} {r : Except Fatal α} {cause : Fatal} (h : r = .error cause) (k : α → Result) :
    attempt r k = .fault (.fatal cause) := by rw [h]; rfl

theorem attempt_next {α : Type} {r : Except Fatal α} {k : α → Result} {t : State} :
    attempt r k = .next t ↔ ∃ a, r = .ok a ∧ k a = .next t := by
  cases r <;> simp

theorem attempt_fault {α : Type} {r : Except Fatal α} {k : α → Result} {f : Fault} :
    attempt r k = .fault f ↔ (∃ c, r = .error c ∧ f = .fatal c) ∨ ∃ a, r = .ok a ∧ k a = .fault f := by
  cases r <;> simp [eq_comm]

theorem complete_eq (d : Disposition) (s : State) : complete d s = .next (s.resolve d) := rfl

@[simp] theorem complete_next {d : Disposition} {s t : State} : complete d s = .next t ↔ s.resolve d = t := by
  simp [complete]

@[simp] theorem complete_ne_fault {d : Disposition} {s : State} {f : Fault} : complete d s ≠ .fault f := by
  simp [complete]

@[simp] theorem complete_ne_refused {d : Disposition} {s : State} {r : Refusal} : complete d s ≠ .refused r := by
  simp [complete]

theorem finishAlu_eq (x : Reg) (r : Byte) (c : Bool) (s : State) :
    finishAlu x r c s = .next (((s.writeV x r).writeFlag c).resolve .next) := rfl

/-! ### Memory blocks -/

theorem checkRange_of_le {base n : Nat} (h : n = 0 ∨ base + n ≤ 0x1000) : checkRange base n = .ok () := by
  unfold checkRange; rw [if_neg (by omega)]

theorem checkRange_of_gt {base n : Nat} (hn : n ≠ 0) (h : base + n > 0x1000) :
    checkRange base n = .error (.memRange (max base 0x1000)) := by
  unfold checkRange; rw [if_pos (by omega)]

theorem State.loadBytes_ok {base n : Nat} {s : State} (h : n = 0 ∨ base + n ≤ 0x1000) :
    s.loadBytes base n = .ok (s.mem.readBytes base n) := by
  simp [State.loadBytes, checkRange_of_le h]

theorem State.loadBytes_error {base n : Nat} {s : State} (hn : n ≠ 0) (h : base + n > 0x1000) :
    s.loadBytes base n = .error (.memRange (max base 0x1000)) := by
  simp [State.loadBytes, checkRange_of_gt hn h]

/-- A block read either answers the bytes, its addresses in range, or raises MEM_RANGE. -/
theorem State.loadBytes_cases (base n : Nat) (s : State) :
    ((n = 0 ∨ base + n ≤ 0x1000) ∧ s.loadBytes base n = .ok (s.mem.readBytes base n)) ∨
    (n ≠ 0 ∧ base + n > 0x1000 ∧ s.loadBytes base n = .error (.memRange (max base 0x1000))) := by
  by_cases h : n = 0 ∨ base + n ≤ 0x1000
  · exact .inl ⟨h, State.loadBytes_ok h⟩
  · have hn : n ≠ 0 := fun h0 => h (.inl h0)
    have hg : base + n > 0x1000 := by omega
    exact .inr ⟨hn, hg, State.loadBytes_error hn hg⟩

theorem State.storeBytes_ok {base : Nat} {bs : List Byte} {s : State} (h : bs.length = 0 ∨ base + bs.length ≤ 0x1000) :
    s.storeBytes base bs = .ok { s with mem := s.mem.writeBytes base bs } := by
  simp [State.storeBytes, checkRange_of_le h]

theorem State.storeBytes_error {base : Nat} {bs : List Byte} {s : State} (hn : bs.length ≠ 0)
    (h : base + bs.length > 0x1000) : s.storeBytes base bs = .error (.memRange (max base 0x1000)) := by
  simp [State.storeBytes, checkRange_of_gt hn h]

/-- A block write either writes every byte, its addresses in range, or raises MEM_RANGE and writes none. -/
theorem State.storeBytes_cases (base : Nat) (bs : List Byte) (s : State) :
    ((bs.length = 0 ∨ base + bs.length ≤ 0x1000) ∧
      s.storeBytes base bs = .ok { s with mem := s.mem.writeBytes base bs }) ∨
    (bs.length ≠ 0 ∧ base + bs.length > 0x1000 ∧ s.storeBytes base bs = .error (.memRange (max base 0x1000))) := by
  by_cases h : bs.length = 0 ∨ base + bs.length ≤ 0x1000
  · exact .inl ⟨h, State.storeBytes_ok h⟩
  · have hn : bs.length ≠ 0 := fun h0 => h (.inl h0)
    have hg : base + bs.length > 0x1000 := by omega
    exact .inr ⟨hn, hg, State.storeBytes_error hn hg⟩

@[simp] theorem bcdDigits_length (b : Byte) : (bcdDigits b).length = 3 := rfl

@[simp] theorem State.readVs_length (x : Reg) (s : State) : (s.readVs x).length = x.val + 1 := by
  simp [State.readVs]

theorem State.readVs_getElem? (x : Reg) (s : State) (k : Reg) (h : k.val ≤ x.val) :
    (s.readVs x)[k.val]? = some (s.readV k) := by
  have h1 : k.val < x.val + 1 := by omega
  simp [State.readVs, State.readV, h1]

/-! ### Register blocks -/

theorem State.writeVs_readV (first : Nat) (bs : List Byte) (s : State) (x : Reg) :
    (s.writeVs first bs).readV x = if first ≤ x.val then (bs[x.val - first]?).getD (s.readV x) else s.readV x := by
  induction bs generalizing first s with
  | nil => simp [State.writeVs]
  | cons b bs ih =>
    rw [State.writeVs, ih]
    by_cases h1 : first + 1 ≤ x.val
    · have h16 : first < 16 := by have := x.isLt; omega
      have hne : x ≠ ⟨first, h16⟩ := fun h => by
        have := congrArg Fin.val h; simp at this; omega
      obtain ⟨j, hj⟩ : ∃ j, x.val = first + 1 + j := ⟨x.val - (first + 1), by omega⟩
      have e1 : x.val - (first + 1) = j := by omega
      have e2 : x.val - first = j + 1 := by omega
      have e4 : first ≤ x.val := by omega
      simp [h1, h16, State.readV_writeV_ne _ hne, e1, e2, e4]
    · by_cases h2 : x.val = first
      · have h16 : first < 16 := h2 ▸ x.isLt
        have hx : (⟨first, h16⟩ : Reg) = x := Fin.ext h2.symm
        have e4 : first ≤ x.val := by omega
        have e5 : x.val - first = 0 := by omega
        simp [h1, h16, hx, e4, e5]
      · have h3 : ¬ first ≤ x.val := by omega
        by_cases h16 : first < 16
        · have hne : x ≠ ⟨first, h16⟩ := fun h => h2 (by rw [h])
          simp [h1, h3, h16, State.readV_writeV_ne _ hne]
        · simp [h1, h3, h16]

/-- Loading registers changes no other field. -/
theorem State.writeVs_fields (first : Nat) (bs : List Byte) (s : State) :
    ∃ v, s.writeVs first bs = { s with v := v } := by
  induction bs generalizing first s with
  | nil => exact ⟨s.v, rfl⟩
  | cons b bs ih =>
    rw [State.writeVs]
    split
    · obtain ⟨v, hv⟩ := ih (first + 1) (s.writeV ⟨first, by assumption⟩ b)
      exact ⟨v, hv⟩
    · exact ih (first + 1) s

/-! ### The call stack -/

@[simp] theorem State.popReturn_value (s : State) : s.popReturn.1 = s.slot s.sp := rfl

theorem State.popReturn_sp_val (s : State) : s.popReturn.2.sp.val = s.sp.val - 1 := by
  unfold State.popReturn
  dsimp only
  split
  · rfl
  · omega

/-- A push writes the slot at SP when that slot is 0, writes the next slot and advances SP when it is not, and
overflows when there is no next slot (R157, R158). -/
theorem State.pushReturn_cases (ret : Word) (s : State) :
    (s.slot s.sp = 0 ∧ s.pushReturn ret = .ok { s with stack := s.stack.set s.sp ret }) ∨
    (s.slot s.sp ≠ 0 ∧ ∃ h : s.sp.val < 15,
      s.pushReturn ret = .ok { s with sp := ⟨s.sp.val + 1, by omega⟩, stack := s.stack.set (s.sp.val + 1) ret }) ∨
    (s.slot s.sp ≠ 0 ∧ s.sp.val = 15 ∧ s.pushReturn ret = .error (.stackOverflow s.pc)) := by
  unfold State.pushReturn
  by_cases h0 : s.slot s.sp = 0
  · exact .inl ⟨h0, by rw [if_pos h0]⟩
  · by_cases h15 : s.sp.val < 15
    · exact .inr (.inl ⟨h0, h15, by rw [if_neg h0, dif_pos h15]⟩)
    · exact .inr (.inr ⟨h0, by omega, by rw [if_neg h0, dif_neg h15]⟩)

/-! ### Keys -/

theorem keyIndex_ok {b : Byte} (h : b.toNat ≤ 15) : keyIndex b = .ok ⟨b.toNat, by omega⟩ := by
  unfold keyIndex; rw [dif_pos h]

theorem keyIndex_error {b : Byte} (h : b.toNat > 15) : keyIndex b = .error (.keyRange b) := by
  unfold keyIndex; rw [dif_neg (by omega)]

theorem State.highestKeyBelow_none {s : State} {n : Nat} :
    s.highestKeyBelow n = none ↔ ∀ k < n, s.keys[k]?.getD false = false := by
  induction n with
  | zero => simp [State.highestKeyBelow]
  | succ n ih =>
    rw [State.highestKeyBelow]
    cases hk : s.keys[n]?.getD false with
    | true => simp only [if_true, reduceCtorEq, false_iff, not_forall]; exact ⟨n, by omega, by simp [hk]⟩
    | false =>
      simp only [Bool.false_eq_true, if_false, ih]
      exact ⟨fun h k hlt => (Nat.lt_succ_iff_lt_or_eq.1 hlt).elim (h k) (fun e => e ▸ hk), fun h k hlt => h k (by omega)⟩

theorem State.highestKeyBelow_some {s : State} {n k : Nat} :
    s.highestKeyBelow n = some k ↔
      k < n ∧ s.keys[k]?.getD false = true ∧ ∀ j, k < j → j < n → s.keys[j]?.getD false = false := by
  induction n with
  | zero => simp [State.highestKeyBelow]
  | succ n ih =>
    rw [State.highestKeyBelow]
    cases hk : s.keys[n]?.getD false with
    | true =>
      simp only [if_true, Option.some.injEq]
      constructor
      · rintro rfl; exact ⟨by omega, hk, fun j h1 h2 => by omega⟩
      · rintro ⟨h1, -, h3⟩
        by_contra hne
        have := h3 n (by omega) (by omega)
        simp [hk] at this
    | false =>
      simp only [Bool.false_eq_true, if_false, ih]
      constructor
      · rintro ⟨h1, h2, h3⟩
        exact ⟨by omega, h2, fun j hj hjn => (Nat.lt_succ_iff_lt_or_eq.1 hjn).elim (h3 j hj) (fun e => e ▸ hk)⟩
      · rintro ⟨h1, h2, h3⟩
        have hkn : k ≠ n := fun e => by rw [e, hk] at h2; exact Bool.noConfusion h2
        exact ⟨by omega, h2, fun j hj hjn => h3 j hj (by omega)⟩

theorem State.key_eq_getD (s : State) (k : Fin 16) : s.keys[k.val]?.getD false = s.key k := by
  simp [State.key]

/-- No key is pressed exactly when the scan finds none. -/
theorem State.highestKey_none {s : State} : s.highestKey = none ↔ ∀ k : Fin 16, s.key k = false := by
  unfold State.highestKey
  rw [State.highestKeyBelow_none]
  exact ⟨fun h k => by rw [← State.key_eq_getD]; exact h k.val k.isLt,
    fun h k hk => by rw [State.key_eq_getD s ⟨k, hk⟩]; exact h ⟨k, hk⟩⟩

/-- The scan finds the pressed key with no pressed key above it (R261). -/
theorem State.highestKey_some {s : State} (k : Fin 16) :
    s.highestKey = some k.val ↔ s.key k = true ∧ ∀ j : Fin 16, k < j → s.key j = false := by
  unfold State.highestKey
  rw [State.highestKeyBelow_some, State.key_eq_getD]
  constructor
  · rintro ⟨-, h2, h3⟩
    exact ⟨h2, fun j hj => by rw [← State.key_eq_getD]; exact h3 j.val hj j.isLt⟩
  · rintro ⟨h2, h3⟩
    exact ⟨k.isLt, h2, fun j hj hjn => by rw [State.key_eq_getD s ⟨j, hjn⟩]; exact h3 ⟨j, hjn⟩ hj⟩

theorem State.highestKey_lt {s : State} {k : Nat} (h : s.highestKey = some k) : k < 16 :=
  (State.highestKeyBelow_some.1 h).1

/-! ### Index sum -/

theorem indexSum_ok {i : Word} {b : Byte} (h : i.toNat + b.toNat ≤ 0xFFFF) : indexSum i b = .ok (i.toNat + b.toNat) := by
  unfold indexSum; rw [if_neg (by omega)]

theorem indexSum_error {i : Word} {b : Byte} (h : i.toNat + b.toNat > 0xFFFF) :
    indexSum i b = .error (.indexOverflow (i.toNat + b.toNat)) := by
  unfold indexSum; rw [if_pos h]

end Sys2Proof.Machine
end

