-- ==== Sys2Proof/Laws/Draw.lean ====
section
/-! SUPPORT. What a sprite draw leaves: the cells it touches, and what a list of plotted pixels does to the grid, VF,
SIG and everything else. -/

namespace Sys2Proof.Machine

/-- Plotting pixels changes no field but V, FB and SIG. -/
theorem foldl_plot_fields (ps : List (Fin 64 × Fin 32)) (s : State) :
    ∃ v fb sig, ps.foldl State.plot s = { s with v := v, fb := fb, sig := sig } := by
  induction ps generalizing s with
  | nil => exact ⟨s.v, s.fb, s.sig, rfl⟩
  | cons p ps ih =>
    obtain ⟨v, fb, sig, h⟩ := ih (s.plot p)
    refine ⟨v, fb, sig, ?_⟩
    rw [List.foldl_cons, h]
    apply State.ext_fields <;> simp

theorem foldl_plot_sig (ps : List (Fin 64 × Fin 32)) (s : State) :
    (ps.foldl State.plot s).sig = if ps = [] then s.sig else .drew := by
  induction ps generalizing s with
  | nil => rfl
  | cons p ps ih => rw [List.foldl_cons, ih]; simp

/-- Plotting distinct pixels flips exactly those. -/
theorem foldl_plot_cell (ps : List (Fin 64 × Fin 32)) (hnd : ps.Nodup) (s : State) (x : Fin 64) (y : Fin 32) :
    (ps.foldl State.plot s).cell x y = (s.cell x y ^^ decide ((x, y) ∈ ps)) := by
  induction ps generalizing s with
  | nil => simp
  | cons p ps ih =>
    obtain ⟨hp, hnd'⟩ := List.nodup_cons.1 hnd
    rw [List.foldl_cons, ih hnd', State.plot_cell]
    by_cases h : p = (x, y)
    · subst h; simp [hp]
    · have h' : ¬ (x, y) = p := fun e => h e.symm
      simp [h, h']

/-- Plotting distinct pixels sets VF to 1 exactly when one of them was set before, and changes no other register. -/
theorem foldl_plot_readV (ps : List (Fin 64 × Fin 32)) (hnd : ps.Nodup) (s : State) (z : Reg) :
    (ps.foldl State.plot s).readV z =
      if flagReg = z ∧ ∃ p ∈ ps, s.cell p.1 p.2 = true then 1 else s.readV z := by
  induction ps generalizing s with
  | nil => simp
  | cons p ps ih =>
    obtain ⟨hp, hnd'⟩ := List.nodup_cons.1 hnd
    have hcell : ∀ q ∈ ps, (s.plot p).cell q.1 q.2 = s.cell q.1 q.2 := by
      intro q hq
      have : ¬ p = (q.1, q.2) := fun e => hp (e ▸ hq)
      rw [State.plot_cell]; simp [this]
    have hex : (∃ q ∈ ps, (s.plot p).cell q.1 q.2 = true) ↔ ∃ q ∈ ps, s.cell q.1 q.2 = true :=
      ⟨fun ⟨q, hq, h⟩ => ⟨q, hq, hcell q hq ▸ h⟩, fun ⟨q, hq, h⟩ => ⟨q, hq, (hcell q hq).symm ▸ h⟩⟩
    rw [List.foldl_cons, ih hnd', State.plot_readV]
    simp only [hex, List.mem_cons, exists_eq_or_imp]
    by_cases hz : flagReg = z <;> by_cases hc : s.cell p.1 p.2 = true <;>
      by_cases he : ∃ q ∈ ps, s.cell q.1 q.2 = true <;> simp only [hz, hc, he] <;> simp

/-! ### Geometry -/

theorem spriteColumn_inj {bx : Byte} {c d : Nat} (hc : c < 8) (hd : d < 8) (h : spriteColumn bx c = spriteColumn bx d) :
    c = d := by
  have := congrArg Fin.val h
  simp only [spriteColumn] at this
  omega

theorem mem_rowPixels {bx : Byte} {y : Fin 32} {row : Byte} {p : Fin 64 × Fin 32} :
    p ∈ rowPixels bx y row ↔ ∃ c < 8, spriteBit row c = true ∧ p = (spriteColumn bx c, y) := by
  simp only [rowPixels, List.mem_map, List.mem_filter, List.mem_range]
  exact ⟨fun ⟨c, ⟨h1, h2⟩, h3⟩ => ⟨c, h1, h2, h3.symm⟩, fun ⟨c, h1, h2, h3⟩ => ⟨c, ⟨h1, h2⟩, h3.symm⟩⟩

theorem nodup_rowPixels (bx : Byte) (y : Fin 32) (row : Byte) : (rowPixels bx y row).Nodup := by
  unfold rowPixels
  refine List.Nodup.map_on (fun c hc d hd h => ?_) (List.nodup_range.filter _)
  have hc8 : c < 8 := List.mem_range.1 (List.mem_filter.1 hc).1
  have hd8 : d < 8 := List.mem_range.1 (List.mem_filter.1 hd).1
  exact spriteColumn_inj hc8 hd8 (Prod.ext_iff.1 h).1

theorem mem_spritePixels {bx by_ : Byte} {r : Nat} {rows : List Byte} {p : Fin 64 × Fin 32} :
    p ∈ spritePixels bx by_ r rows ↔
      ∃ k c row, rows[k]? = some row ∧ c < 8 ∧ spriteBit row c = true ∧
        p = (spriteColumn bx c, spriteRow by_ (r + k)) := by
  induction rows generalizing r with
  | nil => simp [spritePixels]
  | cons row rows ih =>
    simp only [spritePixels, List.mem_append, mem_rowPixels, ih]
    constructor
    · rintro (⟨c, h1, h2, h3⟩ | ⟨k, c, row', h1, h2, h3, h4⟩)
      · exact ⟨0, c, row, rfl, h1, h2, h3⟩
      · exact ⟨k + 1, c, row', by simpa using h1, h2, h3, by rw [h4]; congr 2; omega⟩
    · rintro ⟨k, c, row', h1, h2, h3, h4⟩
      cases k with
      | zero => left; simp at h1; subst h1; exact ⟨c, h2, h3, h4⟩
      | succ k => right; exact ⟨k, c, row', by simpa using h1, h2, h3, by rw [h4]; congr 2; omega⟩

/-- One sprite touches no cell twice, even when it wraps (R237). -/
theorem nodup_spritePixels (bx by_ : Byte) (r : Nat) (rows : List Byte) (h : rows.length ≤ 32) :
    (spritePixels bx by_ r rows).Nodup := by
  induction rows generalizing r with
  | nil => simp [spritePixels]
  | cons row rows ih =>
    simp only [List.length_cons] at h
    rw [spritePixels, List.nodup_append]
    refine ⟨nodup_rowPixels _ _ _, ih _ (by omega), fun p hp q hq hpq => ?_⟩
    obtain ⟨c, -, -, h3⟩ := mem_rowPixels.1 hp
    obtain ⟨k, d, row', h1, -, -, h4⟩ := mem_spritePixels.1 hq
    have hk : k < rows.length := (List.getElem?_eq_some_iff.1 h1).1
    have := congrArg Fin.val (Prod.ext_iff.1 (h3.symm.trans (hpq.trans h4))).2
    simp only [spriteRow] at this
    omega

end Sys2Proof.Machine
end

