-- ==== Sys2Proof/Laws/Meanings.lean ====
section
/-! SUPPORT. For each instruction whose meaning can raise or branch, the states it can answer; the other meanings are one
`complete` and reduce by rfl. Then what every instruction leaves of the fields it never writes. -/

namespace Sys2Proof.Machine

theorem exec_call_next {nnn : Addr12} {s t : State} (h : exec (.call nnn) s = .next t) :
    (s.slot s.sp = 0 ∧ t = State.resolve (.jump nnn.zext16) { s with stack := s.stack.set s.sp (s.pc + 2) }) ∨
    (s.slot s.sp ≠ 0 ∧ ∃ hsp : s.sp.val < 15, t = State.resolve (.jump nnn.zext16)
      { s with sp := ⟨s.sp.val + 1, by omega⟩, stack := s.stack.set (s.sp.val + 1) (s.pc + 2) }) := by
  obtain ⟨a, ha, h⟩ := attempt_next.1 h
  rw [complete_next] at h
  rcases State.pushReturn_cases (s.pc + 2) s with ⟨h0, e⟩ | ⟨h0, hsp, e⟩ | ⟨-, -, e⟩ <;> rw [e] at ha <;> cases ha
  · exact .inl ⟨h0, h.symm⟩
  · exact .inr ⟨h0, hsp, h.symm⟩

theorem exec_skp_next {x : Reg} {s t : State} (h : exec (.skp x) s = .next t) : ∃ c, t = s.resolve (skipIf c) := by
  obtain ⟨k, -, h⟩ := attempt_next.1 h
  exact ⟨_, (complete_next.1 h).symm⟩

theorem exec_sknp_next {x : Reg} {s t : State} (h : exec (.sknp x) s = .next t) : ∃ c, t = s.resolve (skipIf c) := by
  obtain ⟨k, -, h⟩ := attempt_next.1 h
  exact ⟨_, (complete_next.1 h).symm⟩

theorem exec_ldVxK_next {x : Reg} {s t : State} (h : exec (.ldVxK x) s = .next t) :
    (s.highestKey = none ∧ t = s.resolve (.jump s.pc)) ∨
    ∃ k, s.highestKey = some k ∧ t = (s.writeV x (BitVec.ofNat 8 k)).resolve .next := by
  simp only [exec, execLdVxK] at h
  split at h
  · rename_i hk; exact .inl ⟨hk, (complete_next.1 h).symm⟩
  · rename_i k hk; exact .inr ⟨k, hk, (complete_next.1 h).symm⟩

theorem exec_addIVx_next {x : Reg} {s t : State} (h : exec (.addIVx x) s = .next t) :
    s.i.toNat + (s.readV x).toNat ≤ 0xFFFF ∧
    t = ((s.writeI (BitVec.ofNat 16 (s.i.toNat + (s.readV x).toNat))).writeFlag
      (aboveMemory (s.i.toNat + (s.readV x).toNat))).resolve .next := by
  obtain ⟨a, ha, h⟩ := attempt_next.1 h
  by_cases hle : s.i.toNat + (s.readV x).toNat ≤ 0xFFFF
  · rw [indexSum_ok hle] at ha; cases ha; exact ⟨hle, (complete_next.1 h).symm⟩
  · rw [indexSum_error (by omega)] at ha; cases ha

theorem exec_drw_next {x y : Reg} {n : Nat} {s t : State} (h : exec (.drw x y n) s = .next t) :
    (n = 0 ∨ s.i.toNat + n ≤ 0x1000) ∧
    t = ((spritePixels (s.readV x) (s.readV y) 0 (s.mem.readBytes s.i.toNat n)).foldl State.plot
      (s.writeFlag false)).resolve .next := by
  obtain ⟨a, ha, h⟩ := attempt_next.1 h
  rcases State.loadBytes_cases s.i.toNat n s with ⟨hle, e⟩ | ⟨-, -, e⟩ <;> rw [e] at ha <;> cases ha
  exact ⟨hle, (complete_next.1 h).symm⟩

theorem exec_ldBVx_next {x : Reg} {s t : State} (h : exec (.ldBVx x) s = .next t) :
    s.i.toNat + 3 ≤ 0x1000 ∧
    t = State.resolve .next { s with mem := s.mem.writeBytes s.i.toNat (bcdDigits (s.readV x)) } := by
  obtain ⟨a, ha, h⟩ := attempt_next.1 h
  rcases State.storeBytes_cases s.i.toNat (bcdDigits (s.readV x)) s with ⟨hle, e⟩ | ⟨-, -, e⟩ <;>
    rw [e] at ha <;> cases ha
  simp only [bcdDigits_length] at hle
  exact ⟨by omega, (complete_next.1 h).symm⟩

theorem exec_ldMemVx_next {x : Reg} {s t : State} (h : exec (.ldMemVx x) s = .next t) :
    s.i.toNat + x.val + 1 ≤ 0x1000 ∧
    t = (State.writeI (indexPast s.i x) { s with mem := s.mem.writeBytes s.i.toNat (s.readVs x) }).resolve .next := by
  obtain ⟨a, ha, h⟩ := attempt_next.1 h
  rcases State.storeBytes_cases s.i.toNat (s.readVs x) s with ⟨hle, e⟩ | ⟨-, -, e⟩ <;> rw [e] at ha <;> cases ha
  simp only [State.readVs_length] at hle
  exact ⟨by omega, (complete_next.1 h).symm⟩

theorem exec_ldVxMem_next {x : Reg} {s t : State} (h : exec (.ldVxMem x) s = .next t) :
    s.i.toNat + x.val + 1 ≤ 0x1000 ∧
    t = ((s.writeVs 0 (s.mem.readBytes s.i.toNat (x.val + 1))).writeI (indexPast s.i x)).resolve .next := by
  obtain ⟨a, ha, h⟩ := attempt_next.1 h
  rcases State.loadBytes_cases s.i.toNat (x.val + 1) s with ⟨hle, e⟩ | ⟨-, -, e⟩ <;> rw [e] at ha <;> cases ha
  exact ⟨by omega, (complete_next.1 h).symm⟩

/-- No instruction writes a key, HALTED or LAST (spec/10_state.md R42, R52, spec/40_cycle.md R137). -/
theorem exec_keeps_keys_halted_last {i : Instr} {s t : State} (h : exec i s = .next t) :
    t.keys = s.keys ∧ t.halted = s.halted ∧ t.last = s.last := by
  cases i
  case call nnn => rcases exec_call_next h with ⟨-, rfl⟩ | ⟨-, -, rfl⟩ <;> simp
  case skp x => obtain ⟨c, rfl⟩ := exec_skp_next h; simp
  case sknp x => obtain ⟨c, rfl⟩ := exec_sknp_next h; simp
  case ldVxK x => rcases exec_ldVxK_next h with ⟨-, rfl⟩ | ⟨k, -, rfl⟩ <;> simp
  case addIVx x => obtain ⟨-, rfl⟩ := exec_addIVx_next h; simp
  case drw x y n =>
    obtain ⟨-, rfl⟩ := exec_drw_next h
    obtain ⟨v, fb, sig, e⟩ := foldl_plot_fields
      (spritePixels (s.readV x) (s.readV y) 0 (s.mem.readBytes s.i.toNat n)) (s.writeFlag false)
    rw [e]; simp
  case ldBVx x => obtain ⟨-, rfl⟩ := exec_ldBVx_next h; simp
  case ldMemVx x => obtain ⟨-, rfl⟩ := exec_ldMemVx_next h; simp
  case ldVxMem x =>
    obtain ⟨-, rfl⟩ := exec_ldVxMem_next h
    obtain ⟨v, e⟩ := State.writeVs_fields 0 (s.mem.readBytes s.i.toNat (x.val + 1)) s
    rw [e]; simp
  all_goals cases h; simp

/-- Only CALL and RET write the call stack (spec/10_state.md R37). -/
theorem exec_flat_keeps_stack {i : Instr} {s t : State} (hi : Instr.isFlat i) (h : exec i s = .next t) :
    t.stack = s.stack ∧ t.sp = s.sp := by
  cases i
  case call nnn => exact absurd hi id
  case ret => exact absurd hi id
  case skp x => obtain ⟨c, rfl⟩ := exec_skp_next h; simp
  case sknp x => obtain ⟨c, rfl⟩ := exec_sknp_next h; simp
  case ldVxK x => rcases exec_ldVxK_next h with ⟨-, rfl⟩ | ⟨k, -, rfl⟩ <;> simp
  case addIVx x => obtain ⟨-, rfl⟩ := exec_addIVx_next h; simp
  case drw x y n =>
    obtain ⟨-, rfl⟩ := exec_drw_next h
    obtain ⟨v, fb, sig, e⟩ := foldl_plot_fields
      (spritePixels (s.readV x) (s.readV y) 0 (s.mem.readBytes s.i.toNat n)) (s.writeFlag false)
    rw [e]; simp
  case ldBVx x => obtain ⟨-, rfl⟩ := exec_ldBVx_next h; simp
  case ldMemVx x => obtain ⟨-, rfl⟩ := exec_ldMemVx_next h; simp
  case ldVxMem x =>
    obtain ⟨-, rfl⟩ := exec_ldVxMem_next h
    obtain ⟨v, e⟩ := State.writeVs_fields 0 (s.mem.readBytes s.i.toNat (x.val + 1)) s
    rw [e]; simp
  all_goals cases h; simp

/-- Every instruction keeps memory in canonical form. -/
theorem exec_keeps_wf {i : Instr} {s t : State} (hm : s.mem.wf = true) (h : exec i s = .next t) : t.mem.wf = true := by
  cases i
  case call nnn => rcases exec_call_next h with ⟨-, rfl⟩ | ⟨-, -, rfl⟩ <;> simpa using hm
  case skp x => obtain ⟨c, rfl⟩ := exec_skp_next h; simpa using hm
  case sknp x => obtain ⟨c, rfl⟩ := exec_sknp_next h; simpa using hm
  case ldVxK x => rcases exec_ldVxK_next h with ⟨-, rfl⟩ | ⟨k, -, rfl⟩ <;> simpa using hm
  case addIVx x => obtain ⟨-, rfl⟩ := exec_addIVx_next h; simpa using hm
  case drw x y n =>
    obtain ⟨-, rfl⟩ := exec_drw_next h
    obtain ⟨v, fb, sig, e⟩ := foldl_plot_fields
      (spritePixels (s.readV x) (s.readV y) 0 (s.mem.readBytes s.i.toNat n)) (s.writeFlag false)
    rw [e]; simpa using hm
  case ldBVx x =>
    obtain ⟨hr, rfl⟩ := exec_ldBVx_next h
    simpa using Memory.wf_writeBytes hm (by rw [bcdDigits_length]; omega)
  case ldMemVx x =>
    obtain ⟨hr, rfl⟩ := exec_ldMemVx_next h
    simpa using Memory.wf_writeBytes hm (by rw [State.readVs_length]; omega)
  case ldVxMem x =>
    obtain ⟨-, rfl⟩ := exec_ldVxMem_next h
    obtain ⟨v, e⟩ := State.writeVs_fields 0 (s.mem.readBytes s.i.toNat (x.val + 1)) s
    rw [e]; simpa using hm
  all_goals cases h; simpa using hm

end Sys2Proof.Machine
end

