-- ==== Sys2Proof/Laws/PerInstr.lean ====
section
/-! SUPPORT. The families of statements made per instruction, one lemma a constructor. -/

namespace Sys2Proof

theorem formatA_toNat (f : Nat) (hf : f < 16) (nnn : Addr12) : (formatA f nnn).toNat = f * 4096 + nnn.toNat := by
  simp only [formatA, BitVec.toNat_ofNat]; omega

theorem formatXB_toNat (f : Nat) (hf : f < 16) (x : Reg) (nn : Byte) :
    (formatXB f x nn).toNat = f * 4096 + x.val * 256 + nn.toNat := by
  simp only [formatXB, BitVec.toNat_ofNat]; omega

theorem formatXY_toNat (f : Nat) (hf : f < 16) (x y : Reg) (s : Nat) (hs : s < 16) :
    (formatXY f x y s).toNat = f * 4096 + x.val * 256 + y.val * 16 + s := by
  simp only [formatXY, BitVec.toNat_ofNat]; omega

theorem formatXS_toNat (f : Nat) (hf : f < 16) (x : Reg) (s : Nat) (hs : s < 256) :
    (formatXS f x s).toNat = f * 4096 + x.val * 256 + s := by
  simp only [formatXS, BitVec.toNat_ofNat]; omega

theorem fields_of_formatA (f : Nat) (hf : f < 16) (nnn : Addr12) :
    fieldF (formatA f nnn) = f ∧ fieldNNN (formatA f nnn) = nnn := by
  have h := formatA_toNat f hf nnn
  refine ⟨by simp only [fieldF, h]; omega, BitVec.eq_of_toNat_eq ?_⟩
  simp only [fieldNNN, BitVec.toNat_setWidth, h]; omega

theorem fields_of_formatXB (f : Nat) (hf : f < 16) (x : Reg) (nn : Byte) :
    fieldF (formatXB f x nn) = f ∧ fieldX (formatXB f x nn) = x ∧ fieldNN (formatXB f x nn) = nn := by
  have h := formatXB_toNat f hf x nn
  refine ⟨by simp only [fieldF, h]; omega, Fin.ext ?_, BitVec.eq_of_toNat_eq ?_⟩
  · simp only [fieldX, h]; omega
  · simp only [fieldNN, BitVec.toNat_setWidth, h]; omega

theorem fields_of_formatXY (f : Nat) (hf : f < 16) (x y : Reg) (s : Nat) (hs : s < 16) :
    fieldF (formatXY f x y s) = f ∧ fieldX (formatXY f x y s) = x ∧ fieldY (formatXY f x y s) = y ∧
      fieldN (formatXY f x y s) = s := by
  have h := formatXY_toNat f hf x y s hs
  refine ⟨by simp only [fieldF, h]; omega, Fin.ext ?_, Fin.ext ?_, ?_⟩
  · simp only [fieldX, h]; omega
  · simp only [fieldY, h]; omega
  · simp only [fieldN, h]; omega

theorem fields_of_formatXS (f : Nat) (hf : f < 16) (x : Reg) (s : Nat) (hs : s < 256) :
    fieldF (formatXS f x s) = f ∧ fieldX (formatXS f x s) = x ∧ selector (formatXS f x s) = s := by
  have h := formatXS_toNat f hf x s hs
  refine ⟨by simp only [fieldF, h]; omega, Fin.ext ?_, ?_⟩
  · simp only [fieldX, h]; omega
  · simp only [selector, h]; omega

end Sys2Proof

namespace Sys2Proof.Laws.DecodeEncode

/-- Decoding the encoding of a well-formed instruction gives it back. -/
def Statement (i : Instr) : Prop := i.wf = true → decode (encode i) = .ok i

theorem cls : Statement .cls := fun _ => by decide

theorem ret : Statement .ret := fun _ => by decide

theorem jp (nnn : Addr12) : Statement (.jp nnn) := fun _ => by
  obtain ⟨hF, hN⟩ := fields_of_formatA 0x1 (by decide) nnn
  simp [encode, decode, hF, hN]

theorem call (nnn : Addr12) : Statement (.call nnn) := fun _ => by
  obtain ⟨hF, hN⟩ := fields_of_formatA 0x2 (by decide) nnn
  simp [encode, decode, hF, hN]

theorem seImm (x : Reg) (nn : Byte) : Statement (.seImm x nn) := fun _ => by
  obtain ⟨hF, hX, hN⟩ := fields_of_formatXB 0x3 (by decide) x nn
  simp [encode, decode, hF, hX, hN]

theorem sneImm (x : Reg) (nn : Byte) : Statement (.sneImm x nn) := fun _ => by
  obtain ⟨hF, hX, hN⟩ := fields_of_formatXB 0x4 (by decide) x nn
  simp [encode, decode, hF, hX, hN]

theorem seReg (x y : Reg) : Statement (.seReg x y) := fun _ => by
  obtain ⟨hF, hX, hY, -⟩ := fields_of_formatXY 0x5 (by decide) x y 0x0 (by decide)
  simp [encode, decode, hF, hX, hY]

theorem ldImm (x : Reg) (nn : Byte) : Statement (.ldImm x nn) := fun _ => by
  obtain ⟨hF, hX, hN⟩ := fields_of_formatXB 0x6 (by decide) x nn
  simp [encode, decode, hF, hX, hN]

theorem addImm (x : Reg) (nn : Byte) : Statement (.addImm x nn) := fun _ => by
  obtain ⟨hF, hX, hN⟩ := fields_of_formatXB 0x7 (by decide) x nn
  simp [encode, decode, hF, hX, hN]

theorem ldReg (x y : Reg) : Statement (.ldReg x y) := fun _ => by
  obtain ⟨hF, hX, hY, hN⟩ := fields_of_formatXY 0x8 (by decide) x y 0x0 (by decide)
  simp [encode, decode, decodeFamily8, hN, hF, hX, hY]

theorem orReg (x y : Reg) : Statement (.orReg x y) := fun _ => by
  obtain ⟨hF, hX, hY, hN⟩ := fields_of_formatXY 0x8 (by decide) x y 0x1 (by decide)
  simp [encode, decode, decodeFamily8, hN, hF, hX, hY]

theorem andReg (x y : Reg) : Statement (.andReg x y) := fun _ => by
  obtain ⟨hF, hX, hY, hN⟩ := fields_of_formatXY 0x8 (by decide) x y 0x2 (by decide)
  simp [encode, decode, decodeFamily8, hN, hF, hX, hY]

theorem xorReg (x y : Reg) : Statement (.xorReg x y) := fun _ => by
  obtain ⟨hF, hX, hY, hN⟩ := fields_of_formatXY 0x8 (by decide) x y 0x3 (by decide)
  simp [encode, decode, decodeFamily8, hN, hF, hX, hY]

theorem addReg (x y : Reg) : Statement (.addReg x y) := fun _ => by
  obtain ⟨hF, hX, hY, hN⟩ := fields_of_formatXY 0x8 (by decide) x y 0x4 (by decide)
  simp [encode, decode, decodeFamily8, hN, hF, hX, hY]

theorem sub (x y : Reg) : Statement (.sub x y) := fun _ => by
  obtain ⟨hF, hX, hY, hN⟩ := fields_of_formatXY 0x8 (by decide) x y 0x5 (by decide)
  simp [encode, decode, decodeFamily8, hN, hF, hX, hY]

theorem shr (x y : Reg) : Statement (.shr x y) := fun _ => by
  obtain ⟨hF, hX, hY, hN⟩ := fields_of_formatXY 0x8 (by decide) x y 0x6 (by decide)
  simp [encode, decode, decodeFamily8, hN, hF, hX, hY]

theorem subn (x y : Reg) : Statement (.subn x y) := fun _ => by
  obtain ⟨hF, hX, hY, hN⟩ := fields_of_formatXY 0x8 (by decide) x y 0x7 (by decide)
  simp [encode, decode, decodeFamily8, hN, hF, hX, hY]

theorem shl (x y : Reg) : Statement (.shl x y) := fun _ => by
  obtain ⟨hF, hX, hY, hN⟩ := fields_of_formatXY 0x8 (by decide) x y 0xE (by decide)
  simp [encode, decode, decodeFamily8, hN, hF, hX, hY]

theorem sneReg (x y : Reg) : Statement (.sneReg x y) := fun _ => by
  obtain ⟨hF, hX, hY, -⟩ := fields_of_formatXY 0x9 (by decide) x y 0x0 (by decide)
  simp [encode, decode, hF, hX, hY]

theorem ldI (nnn : Addr12) : Statement (.ldI nnn) := fun _ => by
  obtain ⟨hF, hN⟩ := fields_of_formatA 0xA (by decide) nnn
  simp [encode, decode, hF, hN]

theorem jpV0 (nnn : Addr12) : Statement (.jpV0 nnn) := fun _ => by
  obtain ⟨hF, hN⟩ := fields_of_formatA 0xB (by decide) nnn
  simp [encode, decode, hF, hN]

theorem rnd (x : Reg) (nn : Byte) : Statement (.rnd x nn) := fun _ => by
  obtain ⟨hF, hX, hN⟩ := fields_of_formatXB 0xC (by decide) x nn
  simp [encode, decode, hF, hX, hN]

theorem drw (x y : Reg) (n : Nat) : Statement (.drw x y n) := fun hwf => by
  have hn : n < 16 := by simp [Instr.wf] at hwf; omega
  obtain ⟨hF, hX, hY, hN⟩ := fields_of_formatXY 0xD (by decide) x y n hn
  simp [encode, decode, hF, hX, hY, hN]

theorem skp (x : Reg) : Statement (.skp x) := fun _ => by
  obtain ⟨hF, hX, hS⟩ := fields_of_formatXS 0xE (by decide) x 0x9E (by decide)
  simp [encode, decode, decodeFamilyE, hF, hX, hS]

theorem sknp (x : Reg) : Statement (.sknp x) := fun _ => by
  obtain ⟨hF, hX, hS⟩ := fields_of_formatXS 0xE (by decide) x 0xA1 (by decide)
  simp [encode, decode, decodeFamilyE, hF, hX, hS]

theorem ldVxDt (x : Reg) : Statement (.ldVxDt x) := fun _ => by
  obtain ⟨hF, hX, hS⟩ := fields_of_formatXS 0xF (by decide) x 0x07 (by decide)
  simp [encode, decode, decodeFamilyF, hF, hX, hS]

theorem ldVxK (x : Reg) : Statement (.ldVxK x) := fun _ => by
  obtain ⟨hF, hX, hS⟩ := fields_of_formatXS 0xF (by decide) x 0x0A (by decide)
  simp [encode, decode, decodeFamilyF, hF, hX, hS]

theorem ldDtVx (x : Reg) : Statement (.ldDtVx x) := fun _ => by
  obtain ⟨hF, hX, hS⟩ := fields_of_formatXS 0xF (by decide) x 0x15 (by decide)
  simp [encode, decode, decodeFamilyF, hF, hX, hS]

theorem ldStVx (x : Reg) : Statement (.ldStVx x) := fun _ => by
  obtain ⟨hF, hX, hS⟩ := fields_of_formatXS 0xF (by decide) x 0x18 (by decide)
  simp [encode, decode, decodeFamilyF, hF, hX, hS]

theorem addIVx (x : Reg) : Statement (.addIVx x) := fun _ => by
  obtain ⟨hF, hX, hS⟩ := fields_of_formatXS 0xF (by decide) x 0x1E (by decide)
  simp [encode, decode, decodeFamilyF, hF, hX, hS]

theorem ldFVx (x : Reg) : Statement (.ldFVx x) := fun _ => by
  obtain ⟨hF, hX, hS⟩ := fields_of_formatXS 0xF (by decide) x 0x29 (by decide)
  simp [encode, decode, decodeFamilyF, hF, hX, hS]

theorem ldBVx (x : Reg) : Statement (.ldBVx x) := fun _ => by
  obtain ⟨hF, hX, hS⟩ := fields_of_formatXS 0xF (by decide) x 0x33 (by decide)
  simp [encode, decode, decodeFamilyF, hF, hX, hS]

theorem ldMemVx (x : Reg) : Statement (.ldMemVx x) := fun _ => by
  obtain ⟨hF, hX, hS⟩ := fields_of_formatXS 0xF (by decide) x 0x55 (by decide)
  simp [encode, decode, decodeFamilyF, hF, hX, hS]

theorem ldVxMem (x : Reg) : Statement (.ldVxMem x) := fun _ => by
  obtain ⟨hF, hX, hS⟩ := fields_of_formatXS 0xF (by decide) x 0x65 (by decide)
  simp [encode, decode, decodeFamilyF, hF, hX, hS]

end Sys2Proof.Laws.DecodeEncode
end

