-- ==== Sys2Proof/Laws/Step.lean ====
section
/-! SUPPORT. What one cycle can do. -/

namespace Sys2Proof.Machine

theorem State.fetch_ok {s : State} (h : s.pc.toNat + 1 ≤ 0xFFF) :
    s.fetch = .ok (composeWord (s.mem.read s.pc.toNat) (s.mem.read (s.pc.toNat + 1))) := by
  unfold State.fetch; rw [if_neg (by omega)]

theorem State.fetch_error {s : State} (h : s.pc.toNat + 1 > 0xFFF) : s.fetch = .error (.fetchRange s.pc) := by
  unfold State.fetch; rw [if_pos h]

/-- A fetch that succeeds was within memory. -/
theorem State.fetch_range {s : State} {op : Word} (h : s.fetch = .ok op) : s.pc.toNat + 1 ≤ 0xFFF := by
  by_contra hn
  rw [State.fetch_error (by omega)] at h
  cases h

/-- A step of a core that is not halted runs the decoded instruction and records it. -/
theorem step_of_decode {s : State} {op : Word} {i : Instr} (h0 : s.halted = none) (hf : s.fetch = .ok op)
    (hd : decode op = .ok i) : step s = executeAndRecord exec i op s := by
  simp [step, cycleWith, h0, hf, hd]

/-- Everything a step that answers a next state has done. -/
theorem step_next {s t : State} :
    step s = .next t ↔ s.halted = none ∧ ∃ op i u, s.fetch = .ok op ∧ decode op = .ok i ∧ exec i s = .next u ∧
      t = u.record i op := by
  constructor
  · intro h
    cases h0 : s.halted with
    | some c => simp [step, cycleWith, h0] at h
    | none =>
      cases hf : s.fetch with
      | error c => simp [step, cycleWith, h0, hf] at h
      | ok op =>
        cases hd : decode op with
        | error r => simp [step, cycleWith, h0, hf, hd, raise] at h
        | ok i =>
          rw [step_of_decode h0 hf hd] at h
          cases hx : exec i s with
          | next u =>
            simp only [executeAndRecord, hx, Host.Outcome.next.injEq] at h
            exact ⟨rfl, op, i, u, rfl, hd, hx, h.symm⟩
          | fault f => simp [executeAndRecord, hx] at h
          | refused r => simp [executeAndRecord, hx] at h
  · rintro ⟨h0, op, i, u, hf, hd, hx, rfl⟩
    rw [step_of_decode h0 hf hd]
    simp [executeAndRecord, hx]

end Sys2Proof.Machine
end

