-- ==== Sys2Proof/Tests/Slice0.lean ====
section
/-! SUPPORT. The model's own tests. Expected results come from the vectors of spec/95_test_vectors.md (their ids are
named) or from the patterns of spec/30_encoding.md R113; none is the model's own answer. -/

namespace Sys2Proof.Tests
open Sys2Proof.Machine

/-- The core after reset with PC = 0x300 and the opcode `op` there: the vectors' convention. -/
def at300 (op : Nat) (pre : State → State) : State :=
  State.withFetchWord (pre { State.reset with pc := 0x300 }) 16 op

/-- One step completes in a state that passes the check. -/
def completes (s : State) (check : State → Bool) : Bool :=
  match step s with
  | .next t => check t
  | _ => false

/-- One step raises the fatal. -/
def raises (s : State) (f : Fatal) : Bool :=
  match step s with
  | .fault (.fatal g) => g == f
  | _ => false

/-- The word decodes to the instruction. -/
def decodesTo (w : Word) (i : Instr) : Bool :=
  match decode w with
  | .ok j => i == j
  | .error _ => false

/-- The decoder refuses the word for the reason. -/
def refusesFor (w : Word) (r : Reject) : Bool :=
  match decode w with
  | .ok _ => false
  | .error q => q == r

/-- The bytes as memory contents at `base`. -/
def withBytes (base : Nat) (bs : List Byte) (s : State) : State := { s with mem := s.mem.writeBytes base bs }

/-! ## Well-formedness -/

theorem test_wf_refuses_sixteen_rows : Instr.wf (.drw 1 2 16) = false := by decide

theorem test_wf_accepts_fifteen_rows : Instr.wf (.drw 1 2 15) = true := by decide

/-! ## Decoding: words written out bit by bit from R102 and R113 -/

theorem test_decode_cls : decodesTo 0b0000_0000_1110_0000 .cls = true := by decide

theorem test_decode_ret : decodesTo 0b0000_0000_1110_1110 .ret = true := by decide

theorem test_decode_jp : decodesTo 0b0001_1010_1011_1100 (.jp 0xABC) = true := by decide

theorem test_decode_call : decodesTo 0b0010_0010_0000_1000 (.call 0x208) = true := by decide

theorem test_decode_seImm : decodesTo 0b0011_0011_0100_0010 (.seImm 3 0x42) = true := by decide

theorem test_decode_sneImm : decodesTo 0b0100_0011_0100_0010 (.sneImm 3 0x42) = true := by decide

theorem test_decode_seReg : decodesTo 0b0101_0001_0010_0001 (.seReg 1 2) = true := by decide

theorem test_decode_ldImm : decodesTo 0b0110_1010_1111_1111 (.ldImm 10 0xFF) = true := by decide

theorem test_decode_addImm : decodesTo 0b0111_0000_0000_0001 (.addImm 0 1) = true := by decide

theorem test_decode_ldReg : decodesTo 0b1000_0001_0010_0000 (.ldReg 1 2) = true := by decide

theorem test_decode_orReg : decodesTo 0b1000_0001_0010_0001 (.orReg 1 2) = true := by decide

theorem test_decode_andReg : decodesTo 0b1000_0001_0010_0010 (.andReg 1 2) = true := by decide

theorem test_decode_xorReg : decodesTo 0b1000_0001_0010_0011 (.xorReg 1 2) = true := by decide

theorem test_decode_addReg : decodesTo 0b1000_0001_0010_0100 (.addReg 1 2) = true := by decide

theorem test_decode_sub : decodesTo 0b1000_0001_0010_0101 (.sub 1 2) = true := by decide

theorem test_decode_shr : decodesTo 0b1000_0011_0111_0110 (.shr 3 7) = true := by decide

theorem test_decode_subn : decodesTo 0b1000_0001_0010_0111 (.subn 1 2) = true := by decide

theorem test_decode_shl : decodesTo 0b1000_0011_0111_1110 (.shl 3 7) = true := by decide

theorem test_decode_sneReg : decodesTo 0b1001_0001_0010_1111 (.sneReg 1 2) = true := by decide

theorem test_decode_ldI : decodesTo 0b1010_0001_0010_0011 (.ldI 0x123) = true := by decide

theorem test_decode_jpV0 : decodesTo 0b1011_0011_0000_0000 (.jpV0 0x300) = true := by decide

theorem test_decode_rnd : decodesTo 0b1100_0011_0000_1111 (.rnd 3 0x0F) = true := by decide

theorem test_decode_drw : decodesTo 0b1101_0001_0010_0101 (.drw 1 2 5) = true := by decide

theorem test_decode_skp : decodesTo 0b1110_0010_1001_1110 (.skp 2) = true := by decide

theorem test_decode_sknp : decodesTo 0b1110_0010_1010_0001 (.sknp 2) = true := by decide

theorem test_decode_ldVxDt : decodesTo 0b1111_0001_0000_0111 (.ldVxDt 1) = true := by decide

theorem test_decode_ldVxK : decodesTo 0b1111_0010_0000_1010 (.ldVxK 2) = true := by decide

theorem test_decode_ldDtVx : decodesTo 0b1111_0000_0001_0101 (.ldDtVx 0) = true := by decide

theorem test_decode_ldStVx : decodesTo 0b1111_0100_0001_1000 (.ldStVx 4) = true := by decide

theorem test_decode_addIVx : decodesTo 0b1111_0010_0001_1110 (.addIVx 2) = true := by decide

theorem test_decode_ldFVx : decodesTo 0b1111_0000_0010_1001 (.ldFVx 0) = true := by decide

theorem test_decode_ldBVx : decodesTo 0b1111_0000_0011_0011 (.ldBVx 0) = true := by decide

theorem test_decode_ldMemVx : decodesTo 0b1111_0010_0101_0101 (.ldMemVx 2) = true := by decide

theorem test_decode_ldVxMem : decodesTo 0b1111_0010_0110_0101 (.ldVxMem 2) = true := by decide

/-- Vectors E-1 to E-9 and R105, R107 to R109. -/
theorem test_decode_refuses :
    (refusesFor 0x0123 .family0 && refusesFor 0x01E0 .family0 && refusesFor 0x00E1 .family0 &&
      refusesFor 0x8008 .family8 && refusesFor 0x800F .family8 && refusesFor 0xE09F .familyE &&
      refusesFor 0xE0FF .familyE && refusesFor 0xF0FF .familyF && refusesFor 0xF000 .familyF) = true := by decide

/-- The table's numbering: bits 15..0 of one word (row SHL of spec/opcode_table.json). -/
theorem test_decodeTableWord_shl : decodeTableWord 16 0x837E = some (.shl 3 7) := by decide

/-- The assembler forms of R114, as program P4 of spec/95_test_vectors.md spells them. -/
theorem test_assembly : (Instr.assembly (.drw 1 2 2) == "DRW V1, V2, 0x2" &&
    Instr.assembly (.ldI 0x20E) == "LD I, 0x20E" && Instr.assembly (.ldImm 1 0x3C) == "LD V1, 0x3C") = true := by decide

/-! ## One step -/

/-- Vector F-2. -/
theorem test_cls_marks_cleared : completes (at300 0x00E0 id) (fun t => t.sig == .cleared && t.pc == 0x302 && !t.cell 0 0) = true := by decide

/-- Vector FL-3. -/
theorem test_ret_keeps_slot : completes (at300 0x00EE (fun s => { s with sp := 1, stack := (s.stack.set 0 0x202).set 1 0x20C })) (fun t => t.pc == 0x20C && t.sp == 0 && t.slot 1 == 0x20C) = true := by decide

/-- Vector FL-4. -/
theorem test_ret_at_zero : completes (at300 0x00EE (fun s => { s with stack := s.stack.set 0 0x202 })) (fun t => t.pc == 0x202 && t.sp == 0 && t.slot 0 == 0x202) = true := by decide

/-- Vector F-3. -/
theorem test_jp : completes (at300 0x1ABC id) (fun t => t.pc == 0xABC) = true := by decide

/-- Vector FL-1 (at 0x300). -/
theorem test_call_first : completes (at300 0x2208 id) (fun t => t.slot 0 == 0x302 && t.sp == 0 && t.pc == 0x208) = true := by decide

/-- Vector FL-5 (at 0x300). -/
theorem test_call_skips_stale_slot : completes (at300 0x2208 (fun s => { s with stack := s.stack.set 0 0x202 })) (fun t => t.sp == 1 && t.slot 1 == 0x302 && t.slot 0 == 0x202) = true := by decide

/-- Vector FL-7 (at 0x300). -/
theorem test_call_overflow : raises (at300 0x2200 (fun s => { s with sp := 15, stack := Vector.replicate 16 0x202 })) (.stackOverflow 0x300) = true := by decide

/-- Vector K3-1. -/
theorem test_se_imm : completes (at300 0x3342 (fun s => (s.writeV 3 0x42))) (fun t => t.pc == 0x304) = true := by decide

/-- Vector K3-2. -/
theorem test_se_imm_not : completes (at300 0x3343 (fun s => (s.writeV 3 0x42))) (fun t => t.pc == 0x302) = true := by decide

/-- Vector K4-2. -/
theorem test_sne_imm : completes (at300 0x4300 (fun s => (s.writeV 3 0x42))) (fun t => t.pc == 0x304) = true := by decide

/-- Vector E-10. -/
theorem test_se_reg_low_nibble : completes (at300 0x5121 (fun s => ((s.writeV 1 7).writeV 2 7))) (fun t => t.pc == 0x304) = true := by decide

/-- Vector K9-3. -/
theorem test_sne_reg_low_nibble : completes (at300 0x912F (fun s => ((s.writeV 1 7).writeV 2 8))) (fun t => t.pc == 0x304) = true := by decide

/-- Vector L6-1. -/
theorem test_ld_imm : completes (at300 0x6AFF (fun s => (s.writeV 15 0x55))) (fun t => t.readV 10 == 0xFF && t.readV 15 == 0x55) = true := by decide

/-- Vector L7-1. -/
theorem test_add_imm_no_flag : completes (at300 0x7001 (fun s => ((s.writeV 0 0xFF).writeV 15 0x55))) (fun t => t.readV 0 == 0 && t.readV 15 == 0x55) = true := by decide

/-- Vector A0-1. -/
theorem test_ld_reg : completes (at300 0x8010 (fun s => (s.writeV 1 0x12))) (fun t => t.readV 0 == 0x12 && t.readV 1 == 0x12) = true := by decide

/-- Vector A1-1. -/
theorem test_or_keeps_vf : completes (at300 0x8011 (fun s => (((s.writeV 0 0xF0).writeV 1 0x0F).writeV 15 0x33))) (fun t => t.readV 0 == 0xFF && t.readV 15 == 0x33) = true := by decide

/-- Vector A2-1. -/
theorem test_and : completes (at300 0x8012 (fun s => ((s.writeV 0 0xF0).writeV 1 0x3C))) (fun t => t.readV 0 == 0x30) = true := by decide

/-- Vector A3-1. -/
theorem test_xor : completes (at300 0x8013 (fun s => ((s.writeV 0 0xFF).writeV 1 0x0F))) (fun t => t.readV 0 == 0xF0) = true := by decide

/-- Vector A4-1. -/
theorem test_add_carry : completes (at300 0x8014 (fun s => ((s.writeV 0 0xFF).writeV 1 1))) (fun t => t.readV 0 == 0 && t.readV 15 == 1) = true := by decide

/-- Vector A4-4. -/
theorem test_add_into_vf : completes (at300 0x8F14 (fun s => ((s.writeV 15 0x10).writeV 1 0xF5))) (fun t => t.readV 15 == 1) = true := by decide

/-- Vector A5-2. -/
theorem test_sub_borrow : completes (at300 0x8015 (fun s => ((s.writeV 0 3).writeV 1 5))) (fun t => t.readV 0 == 0xFE && t.readV 15 == 0) = true := by decide

/-- Vector A5-3. -/
theorem test_sub_equal : completes (at300 0x8015 (fun s => ((s.writeV 0 7).writeV 1 7))) (fun t => t.readV 0 == 0 && t.readV 15 == 0) = true := by decide

/-- Vector A6-4. -/
theorem test_shr_ignores_y : completes (at300 0x8016 (fun s => ((s.writeV 0 4).writeV 1 0xFF))) (fun t => t.readV 0 == 2 && t.readV 15 == 0) = true := by decide

/-- Vector A6-3. -/
theorem test_shr_odd : completes (at300 0x8006 (fun s => (s.writeV 0 0xFF))) (fun t => t.readV 0 == 0x7F && t.readV 15 == 1) = true := by decide

/-- Vector A7-1. -/
theorem test_subn : completes (at300 0x8017 (fun s => ((s.writeV 0 3).writeV 1 5))) (fun t => t.readV 0 == 2 && t.readV 15 == 1) = true := by decide

/-- Vector AE-1. -/
theorem test_shl : completes (at300 0x800E (fun s => (s.writeV 0 0x81))) (fun t => t.readV 0 == 2 && t.readV 15 == 1) = true := by decide

/-- Vector IA-1. -/
theorem test_ld_i : completes (at300 0xA123 id) (fun t => t.i == 0x123) = true := by decide

/-- Vector IB-2. -/
theorem test_jp_v0_unmasked : completes (at300 0xBFFF (fun s => (s.writeV 0 0xFF))) (fun t => t.pc == 0x10FE) = true := by decide

/-- Vector IC-3. -/
theorem test_rnd_zero_mask : completes (at300 0xC300 (fun s => (s.writeV 3 9))) (fun t => t.draws == 1 && t.pc == 0x302) = true := by decide

/-- Vector D-6. -/
theorem test_drw_wraps : completes (at300 0xD011 (fun s => withBytes 0x400 [0xFF] ((s.writeV 0 0xFF).writeI 0x400))) (fun t => t.cell 63 0 && t.cell 0 0 && t.cell 6 0 && !t.cell 7 0 && !t.cell 62 0 && t.readV 15 == 0 && t.sig == .drew) = true := by decide

/-- Vector D-7. -/
theorem test_drw_reads_vf_first : completes (at300 0xDF11 (fun s => withBytes 0x400 [0x80] (((s.writeV 15 0x10).writeV 1 5).writeI 0x400))) (fun t => t.cell 16 5 && t.readV 15 == 0) = true := by decide

/-- Vector D-5. -/
theorem test_drw_out_of_range : raises (at300 0xD012 (fun s => (s.writeI 0xFFF))) (.memRange 0x1000) = true := by decide

/-- Vector D-3. -/
theorem test_drw_no_rows : completes (at300 0xD010 (fun s => { (s.writeV 15 0x77).writeI 0x1000 with sig := .cleared })) (fun t => t.readV 15 == 0 && t.sig == .cleared && t.i == 0x1000) = true := by decide

/-- Vector KP-1. -/
theorem test_skp_pressed : completes (at300 0xE29E (fun s => ((s.setKey 5 true).writeV 2 5))) (fun t => t.pc == 0x304) = true := by decide

/-- Vector KP-5. -/
theorem test_skp_out_of_range : raises (at300 0xE29E (fun s => (s.writeV 2 0x10))) (.keyRange 0x10) = true := by decide

/-- Vector KP-3. -/
theorem test_sknp_pressed : completes (at300 0xE2A1 (fun s => ((s.setKey 5 true).writeV 2 5))) (fun t => t.pc == 0x302) = true := by decide

/-- Vector M07-1. -/
theorem test_ld_vx_dt : completes (at300 0xF107 (fun s => (s.writeDt 6))) (fun t => t.readV 1 == 6) = true := by decide

/-- Vector M0A-1. -/
theorem test_key_wait_highest : completes (at300 0xF20A (fun s => ((s.setKey 3 true).setKey 9 true))) (fun t => t.readV 2 == 9 && t.pc == 0x302) = true := by decide

/-- Vector M0A-2. -/
theorem test_key_wait_held : completes (at300 0xF20A (fun s => (s.writeV 2 0x44))) (fun t => t.readV 2 == 0x44 && t.pc == 0x300 && t.last == some ⟨.LD_Vx_K, 0xF20A⟩) = true := by decide

/-- Vector M15-1. -/
theorem test_ld_dt_vx : completes (at300 0xF015 (fun s => (s.writeV 0 7))) (fun t => t.dt == 7) = true := by decide

/-- Vector M18-1. -/
theorem test_ld_st_vx : completes (at300 0xF418 (fun s => (s.writeV 4 2))) (fun t => t.st == 2 && t.tone) = true := by decide

/-- Vector M1E-2. -/
theorem test_add_i_flag : completes (at300 0xF11E (fun s => ((s.writeV 1 1).writeI 0xFFF))) (fun t => t.i == 0x1000 && t.readV 15 == 1) = true := by decide

/-- Vector M1E-5. -/
theorem test_add_i_overflow : raises (at300 0xF01E (fun s => ((s.writeV 0 0x20).writeI 0xFFF0))) (.indexOverflow 0x10010) = true := by decide

/-- Vector M29-2. -/
theorem test_ld_f : completes (at300 0xF029 (fun s => (s.writeV 0 0xFF))) (fun t => t.i == 0x4FB) = true := by decide

/-- Vector M33-6. -/
theorem test_ld_b : completes (at300 0xF033 (fun s => ((s.writeV 0 123).writeI 0xFFD))) (fun t => t.mem.read 0xFFD == 1 && t.mem.read 0xFFE == 2 && t.mem.read 0xFFF == 3 && t.i == 0xFFD) = true := by decide

/-- Vector M33-7. -/
theorem test_ld_b_out_of_range : raises (at300 0xF033 (fun s => (s.writeI 0xFFE))) (.memRange 0x1000) = true := by decide

/-- Vector M55-1 (at 0x400). -/
theorem test_ld_mem_vx : completes (at300 0xF255 (fun s => (((((s.writeV 0 1).writeV 1 2).writeV 2 3).writeV 3 4).writeI 0x400))) (fun t => t.mem.readBytes 0x400 4 == [1, 2, 3, 0] && t.i == 0x403) = true := by decide

/-- Vector M55-4. -/
theorem test_ld_mem_vx_out_of_range : raises (at300 0xFF55 (fun s => (s.writeI 0xFF1))) (.memRange 0x1000) = true := by decide

/-- Vector M65-1 (at 0x400). -/
theorem test_ld_vx_mem : completes (at300 0xF265 (fun s => withBytes 0x400 [2, 5, 4, 7] ((s.writeV 3 9).writeI 0x400))) (fun t => t.readV 0 == 2 && t.readV 1 == 5 && t.readV 2 == 4 && t.readV 3 == 9 && t.i == 0x403) = true := by decide

/-- Vector M65-3. -/
theorem test_ld_vx_mem_out_of_range : raises (at300 0xF065 (fun s => (s.writeI 0x1000))) (.memRange 0x1000) = true := by decide

/-! ## Cycle, reset and caller calls -/

/-- Vector C-4. -/
theorem test_fetch_range : raises { State.reset with pc := 0xFFF } (.fetchRange 0xFFF) = true := by decide

/-- Vector C-6: the word at 0x200 after construction is 0x0000. -/
theorem test_reset_fetches_zero : raises State.reset (.decode 0x0000) = true := by decide

/-- Vector FL-6: the word at 0x000 of the default font is 0xF090. -/
theorem test_font_word : raises { State.reset with pc := 0 } (.decode 0xF090) = true := by decide

/-- Vectors T-1 and T-2. -/
theorem test_tick : (State.tick { State.reset with dt := 1, st := 3 }).dt = 0 ∧
    (State.tick { State.reset with dt := 1, st := 3 }).st = 2 ∧ (State.tick State.reset).dt = 0 := by decide

/-- Vectors R-2 and R-3. -/
theorem test_load_rom : ((withBytes 0x50 [0x77] State.reset).load [0x12, 0x34]).mem.read 0x50 = 0x77 ∧
    ((State.reset.load [0xAA, 0xBB, 0xCC]).load [0x11, 0x22]).mem.readBytes 0x200 4 = [0x11, 0x22, 0, 0] := by decide

/-- Vector IF-4. -/
theorem test_rgba : ({ State.reset with fb := State.reset.fb.set 0 (State.reset.fb[0].set 1 true) } : State).rgba.take 12 =
    [0, 0, 0, 0xFF, 0xFF, 0xFF, 0xFF, 0xFF, 0, 0, 0, 0xFF] := by decide +kernel

/-! ## Witnesses: states and operands that meet the hypotheses of the statements -/

/-- The result is a next state. -/
def isNext (r : Result) : Bool :=
  match r with
  | .next _ => true
  | _ => false

theorem next_of {r : Result} (h : isNext r = true) : ∃ t, r = .next t := by
  cases r with
  | next t => exact ⟨t, rfl⟩
  | fault f => cases h
  | refused q => cases h

/-- The result is this fatal. -/
def isFatal (f : Fatal) (r : Result) : Bool :=
  match r with
  | .fault (.fatal g) => g == f
  | _ => false

/-- The state a result holds, or `s` where it holds none. -/
def stateOr (s : State) (r : Result) : State :=
  match r with
  | .next t => t
  | _ => s

/-- The state one step on, where the step completes. -/
def advance (s : State) : State := stateOr s (step s)

theorem next_stateOr {s : State} {r : Result} (h : isNext r = true) : r = .next (stateOr s r) := by
  obtain ⟨t, rfl⟩ := next_of h
  rfl

/-- The step completes and runs the instruction. -/
def stepRuns (i : Instr) (s : State) : Bool :=
  isNext (step s) &&
    match s.fetch with
    | .ok op => decodesTo op i
    | .error _ => false

theorem stepsBy_of {i : Instr} {s : State} (h : stepRuns i s = true) : StepsBy i s (advance s) := by
  unfold stepRuns at h
  rw [Bool.and_eq_true] at h
  refine ⟨next_stateOr h.1, ?_⟩
  have h2 := h.2
  split at h2
  · rename_i op hop
    refine ⟨op, hop, ?_⟩
    unfold decodesTo at h2
    split at h2
    · rename_i j hj
      rw [hj, eq_of_beq h2]
    · cases h2
  · cases h2

/-- One instruction of every constructor. -/
def samples : List Instr :=
  [.cls, .ret, .jp 0xFFF, .call 0x208, .seImm 15 0xFF, .sneImm 0 0, .seReg 15 0, .ldImm 15 0xFF, .addImm 15 1] ++
  [.ldReg 0 15, .orReg 0 15, .andReg 15 0, .xorReg 1 2, .addReg 15 15, .sub 0 1, .shr 15 0, .subn 3 4, .shl 0 15] ++
  [.sneReg 0 15, .ldI 0xFFF, .jpV0 0xFFF, .rnd 15 0xFF, .drw 15 0 15, .skp 15, .sknp 0, .ldVxDt 15, .ldVxK 0] ++
  [.ldDtVx 0, .ldStVx 15, .addIVx 15, .ldFVx 15, .ldBVx 15, .ldMemVx 15, .ldVxMem 15]

/-- Every instruction completes after reset: the hypothesis `exec i s = .next t` of DispositionByInstruction and of
every frame statement is met for each constructor. -/
theorem witness_exec_completes : samples.all (fun i => isNext (exec i State.reset)) = true := by decide

theorem witness_DecodeOfEncode : (Instr.wf (.drw 15 15 15) && Instr.wf (.ldVxMem 15)) = true := by decide

theorem witness_EncodeOfDecode : decode 0x512F = .ok (.seReg 1 2) ∧ decode 0xF065 = .ok (.ldVxMem 0) := ⟨rfl, rfl⟩

theorem witness_FetchIsBigEndian : ({ State.reset with pc := 0xFFE } : State).pc.toNat + 1 ≤ 0xFFF := by decide

theorem witness_StepRunsDecodedInstruction :
    ((at300 0x1ABC id).halted = none ∧ (∃ op, (at300 0x1ABC id).fetch = .ok op ∧ decode op = .ok (.jp 0xABC)) ∧
      isNext (exec (.jp 0xABC) (at300 0x1ABC id)) = true) ∧
    (at300 0xE09E (State.writeV 0 16)).halted = none ∧
      (∃ op, (at300 0xE09E (State.writeV 0 16)).fetch = .ok op ∧ decode op = .ok (.skp 0)) ∧
      isFatal (.keyRange 16) (exec (.skp 0) (at300 0xE09E (State.writeV 0 16))) = true :=
  ⟨⟨rfl, ⟨0x1ABC, rfl, rfl⟩, by decide⟩, rfl, ⟨0xE09E, rfl, rfl⟩, by decide⟩

/-- The clause on the caller's cycle. -/
theorem witness_StepRunsDecodedInstruction_cycle : ∃ t, step (at300 0x1ABC id) = .next t :=
  next_of (by decide +kernel)

theorem witness_IllegalWordIsFatal :
    State.reset.halted = none ∧ State.reset.fetch = .ok 0x0000 ∧ refusesFor 0x0000 .family0 = true :=
  ⟨rfl, rfl, by decide⟩

theorem witness_FatalHaltIsTerminal :
    (({ State.reset with pc := 0xFFF } : State).halted = none ∧
      ({ State.reset with pc := 0xFFF } : State).pc.toNat + 1 > 0xFFF) ∧
    (State.reset.halted = none ∧ isFatal (.decode 0) (step State.reset) = true) ∧
    ∃ s : State, s.halted = some (.decode 0) :=
  ⟨by decide, by decide, { State.reset with halted := some (.decode 0) }, rfl⟩

/-- Each constructor that can raise a fatal raises it. -/
theorem witness_InstructionsRaiseOnlyTheirOwnFatal :
    isFatal (.stackOverflow 0x200)
      (exec (.call 0) { State.reset with sp := 15, stack := Vector.replicate 16 0x202 }) = true ∧
    isFatal (.memRange 0x1000) (exec (.drw 0 0 2) { State.reset with i := 0xFFF }) = true ∧
    isFatal (.memRange 0x1000) (exec (.ldBVx 0) { State.reset with i := 0xFFE }) = true ∧
    isFatal (.memRange 0x1000) (exec (.ldMemVx 15) { State.reset with i := 0xFF1 }) = true ∧
    isFatal (.memRange 0x1001) (exec (.ldVxMem 0) { State.reset with i := 0x1001 }) = true ∧
    isFatal (.keyRange 16) (exec (.skp 0) (State.reset.writeV 0 16)) = true ∧
    isFatal (.keyRange 16) (exec (.sknp 0) (State.reset.writeV 0 16)) = true ∧
    isFatal (.indexOverflow 0x10000) (exec (.addIVx 0) { State.reset.writeV 0 1 with i := 0xFFFF }) = true := by decide

/-- The slot test, and both sides of the last slot. -/
theorem witness_CallPushesReturnAddress :
    State.reset.slot State.reset.sp = 0 ∧
    (∃ s : State, s.slot s.sp ≠ 0 ∧ s.sp.val ≠ 15 ∧ s.sp.val = 14) ∧
    ∃ s : State, s.slot s.sp ≠ 0 ∧ s.sp.val = 15 :=
  ⟨rfl, ⟨{ State.reset with sp := 14, stack := Vector.replicate 16 0x202 }, by decide⟩,
    ⟨{ State.reset with sp := 15, stack := Vector.replicate 16 0x202 }, by decide⟩⟩

/-- CALL 0x208; there V1 <- 5, CALL 0x20E, RET; and RET at 0x20E. -/
def nestedCalls : State := withBytes 0x200
  ([0x22, 0x08, 0x12, 0x02, 0x00, 0x00, 0x00, 0x00] ++ [0x61, 0x05, 0x22, 0x0E, 0x00, 0xEE, 0x00, 0xEE]) State.reset

theorem witness_NestedCallsReturn :
    ∃ a b c, StepsBy (.call 0x208) nestedCalls a ∧ Nested a b ∧ StepsBy .ret b c ∧ nestedCalls.sp = 0 :=
  ⟨_, _, _, stepsBy_of (by decide +kernel),
    .flat (i := .ldImm 1 5) trivial (stepsBy_of (by decide +kernel))
      (.nest (nnn := 0x20E) (stepsBy_of (by decide +kernel)) (.done _) (stepsBy_of (by decide +kernel)) (.done _)),
    stepsBy_of (by decide +kernel), rfl⟩

/-- The other clause: the same run from a slot that is nonzero already. -/
def nestedCallsLater : State := { nestedCalls with stack := nestedCalls.stack.set 0 0x202 }

theorem witness_NestedCallsReturn_later :
    ∃ a b c, StepsBy (.call 0x208) nestedCallsLater a ∧ Nested a b ∧ StepsBy .ret b c ∧
      nestedCallsLater.slot nestedCallsLater.sp ≠ 0 :=
  ⟨_, _, _, stepsBy_of (by decide +kernel),
    .flat (i := .ldImm 1 5) trivial (stepsBy_of (by decide +kernel))
      (.nest (nnn := 0x20E) (stepsBy_of (by decide +kernel)) (.done _) (stepsBy_of (by decide +kernel)) (.done _)),
    stepsBy_of (by decide +kernel), by decide +kernel⟩

theorem witness_NonzeroSlotZeroMakesCallsAdvance :
    ∃ s t u : State, step s = .next t ∧ s.slot 0 ≠ 0 ∧ StackInv s ∧ exec (.call 0x208) s = .next u :=
  ⟨{ at300 0x2208 id with stack := State.reset.stack.set 0 0x202 }, _, _, next_stateOr (s := State.reset) (by decide +kernel), by decide,
    by unfold StackInv; decide, next_stateOr (s := State.reset) (by decide +kernel)⟩

/-- The same with SP above 0, for both clauses: a RET from slot 2, and a CALL from slot 14. -/
theorem witness_NonzeroSlotZeroMakesCallsAdvance_deep :
    (∃ s t : State, step s = .next t ∧ s.slot 0 ≠ 0 ∧ s.sp = 2) ∧
    ∃ s u : State, StackInv s ∧ s.slot 0 ≠ 0 ∧ exec (.call 0x208) s = .next u ∧ s.sp = 14 :=
  ⟨⟨{ at300 0x00EE id with sp := 2, stack := Vector.replicate 16 0x202 }, _,
      next_stateOr (s := State.reset) (by decide +kernel), by decide, rfl⟩,
    { State.reset with sp := 14, stack := Vector.replicate 16 0x202 }, _, by unfold StackInv; decide, by decide,
    next_stateOr (s := State.reset) (by decide +kernel), rfl⟩

theorem witness_registers_apart : (14 : Reg) ≠ 15 ∧ (0 : Reg) ≠ 14 := by decide

/-- The whole of memory's top as a sprite of 15 rows, and a sprite of no rows beyond it. -/
theorem witness_DrwFlipsTouchedCells :
    (∃ s : State, s.i.toNat + 15 ≤ 0x1000 ∧ s.i.toNat = 0xFF1) ∧
    (∃ (s : State), SpriteTouches s 0 1 1 63 31 ∧ s.cell 63 31 = true) ∧
    (∃ (s : State), SpriteTouches s 0 1 1 63 31 ∧ s.cell 63 31 = false) ∧
    ¬ ∃ cx cy, SpriteTouches State.reset 0 1 0 cx cy := by
  refine ⟨⟨{ State.reset with i := 0xFF1 }, by decide⟩,
    ⟨withBytes 0x300 [0x80] { (State.reset.writeV 0 63).writeV 1 31 with
      i := 0x300, fb := State.reset.fb.set 31 (State.reset.fb[31].set 63 true) },
      ⟨0, 0, by decide, by decide, by decide, by decide, by decide⟩, by decide⟩,
    ⟨withBytes 0x300 [0x80] { (State.reset.writeV 0 63).writeV 1 31 with i := 0x300 },
      ⟨0, 0, by decide, by decide, by decide, by decide, by decide⟩, by decide⟩, ?_⟩
  rintro ⟨_, _, r, _, h, _⟩
  exact absurd h (by omega)

/-- A state whose 1-row sprite is the single bit at (63, 31). -/
def onePixel : State := withBytes 0x300 [0x80] { (State.reset.writeV 0 63).writeV 1 31 with i := 0x300 }

theorem witness_DrawingTwiceRestoresTheGrid :
    ∃ t w : State, exec (.drw 0 1 1) onePixel = .next t ∧ t.mem = onePixel.mem ∧ t.i = onePixel.i ∧
      t.readV 0 = onePixel.readV 0 ∧ t.readV 1 = onePixel.readV 1 ∧ exec (.drw 0 1 1) t = .next w ∧
      SpriteTouches onePixel 0 1 1 63 31 ∧ onePixel.cell 63 31 = false :=
  ⟨_, _, next_stateOr (s := onePixel) (by decide), by decide, by decide, by decide, by decide,
    next_stateOr (s := onePixel) (by decide), ⟨0, 0, by decide, by decide, by decide, by decide, by decide⟩, by decide⟩

/-- The clause that leaves VF = 0: the only touched cell is set before the first draw. -/
theorem witness_DrawingTwiceRestoresTheGrid_clear :
    ∃ s t w : State, exec (.drw 0 1 1) s = .next t ∧ t.mem = s.mem ∧ t.i = s.i ∧ t.readV 0 = s.readV 0 ∧
      t.readV 1 = s.readV 1 ∧ exec (.drw 0 1 1) t = .next w ∧ SpriteTouches s 0 1 1 63 31 ∧
      ¬ ∃ cx cy, SpriteTouches s 0 1 1 cx cy ∧ s.cell cx cy = false := by
  refine ⟨{ onePixel with fb := Vector.replicate 32 (Vector.replicate 64 true) }, _, _,
    next_stateOr (s := State.reset) (by decide), by decide, by decide, by decide, by decide,
    next_stateOr (s := State.reset) (by decide), ⟨0, 0, by decide, by decide, by decide, by decide, by decide⟩, ?_⟩
  rintro ⟨cx, cy, -, h⟩
  simp [State.cell] at h

theorem witness_KeySkipsTestTheLevel :
    ((State.reset.writeV 0 15).readV 0).toNat = (15 : Fin 16).val ∧ ((State.reset.writeV 0 16).readV 0).toNat > 15 := by
  decide

theorem witness_KeyWaitHoldsOrTakesHighest :
    (∀ k, State.reset.key k = false) ∧
    (((State.reset.setKey 3 true).setKey 15 true).key 15 = true ∧
      ∀ j, 15 < j → ((State.reset.setKey 3 true).setKey 15 true).key j = false) ∧
    ((State.reset.setKey 0 true).key 0 = true ∧ ∀ j, 0 < j → (State.reset.setKey 0 true).key j = false) := by decide

theorem witness_AddIndexSetsFlagAboveMemory :
    (∃ s : State, s.i.toNat + (s.readV 0).toNat = 0xFFFF) ∧ ∃ s : State, s.i.toNat + (s.readV 0).toNat = 0x10000 :=
  ⟨⟨State.reset.writeI 0xFFFF, by decide⟩, ⟨(State.reset.writeI 0xFFFF).writeV 0 1, by decide⟩⟩

theorem witness_BcdStoresThreeDigits : ∃ s : State, s.mem.wf = true ∧ s.i.toNat + 2 = 0xFFF :=
  ⟨State.reset.writeI 0xFFD, by decide⟩

/-- The premises of BlockStoreAdvancesIndex and of BlockLoadAdvancesIndex. -/
theorem witness_BlockStoreAdvancesIndex : ∃ s : State, s.mem.wf = true ∧ s.i.toNat + (15 : Reg).val = 0xFFF :=
  ⟨State.reset.writeI 0xFF0, by decide⟩

theorem witness_AccessBeyondMemoryIsFatal :
    (∃ s : State, s.i.toNat + 2 - 1 = 0x1000) ∧ (∃ s : State, s.i.toNat + 2 = 0x1000) ∧
    ∃ s : State, s.i.toNat + (0 : Reg).val = 0x1000 :=
  ⟨⟨State.reset.writeI 0xFFF, by decide⟩, ⟨State.reset.writeI 0xFFE, by decide⟩, ⟨State.reset.writeI 0x1000, by decide⟩⟩

theorem witness_LaterReadsSeeStoredBytes :
    ∃ s t u : State, s.mem.wf = true ∧ exec (.ldMemVx 1) s = .next t ∧ u.mem = t.mem ∧ u.i = s.i ∧ u.pc = s.i :=
  ⟨State.reset.writeI 0x300, _, { stateOr State.reset (exec (.ldMemVx 1) (State.reset.writeI 0x300)) with
    i := 0x300, pc := 0x300 }, by decide, next_stateOr (s := State.reset) (by decide), rfl, rfl, rfl⟩

/-- Both cases of the slot a CALL writes. -/
theorem witness_FrameCallStack :
    (if State.reset.slot State.reset.sp = 0 then State.reset.sp.val else State.reset.sp.val + 1) = (0 : Fin 16).val ∧
    ∃ s : State, isNext (exec (.call 0x208) s) = true ∧
      (if s.slot s.sp = 0 then s.sp.val else s.sp.val + 1) = (15 : Fin 16).val :=
  ⟨by decide, { State.reset with sp := 14, stack := Vector.replicate 16 0x202 }, by decide⟩

theorem witness_FrameMemoryTransfers : State.reset.mem.wf = true := by decide

/-- One step that changes each part. -/
theorem witness_WhoMayWriteWhat :
    (stepRuns (.ldDtVx 0) (at300 0xF015 (State.writeV 0 7)) = true ∧
      (advance (at300 0xF015 (State.writeV 0 7))).dt ≠ (at300 0xF015 (State.writeV 0 7)).dt) ∧
    (stepRuns (.ldStVx 0) (at300 0xF018 (State.writeV 0 7)) = true ∧
      (advance (at300 0xF018 (State.writeV 0 7))).st ≠ (at300 0xF018 (State.writeV 0 7)).st) ∧
    (stepRuns .cls (at300 0x00E0 id) = true ∧ (advance (at300 0x00E0 id)).sig ≠ (at300 0x00E0 id).sig) ∧
    (stepRuns (.drw 0 0 1) (at300 0xD001 id) = true ∧
      (advance (at300 0xD001 id)).fb ≠ (at300 0xD001 id).fb ∧ (advance (at300 0xD001 id)).sig ≠ (at300 0xD001 id).sig) ∧
    (stepRuns (.call 0x208) (at300 0x2208 id) = true ∧ (advance (at300 0x2208 id)).stack ≠ (at300 0x2208 id).stack) ∧
    (stepRuns .ret (at300 0x00EE (fun s => { s with sp := 1 })) = true ∧
      (advance (at300 0x00EE (fun s => { s with sp := 1 }))).sp ≠ (1 : Fin 16)) ∧
    (stepRuns (.ldMemVx 0) (at300 0xF055 (fun s => (s.writeV 0 7).writeI 0x400)) = true ∧
      (advance (at300 0xF055 (fun s => (s.writeV 0 7).writeI 0x400))).mem ≠
        (at300 0xF055 (fun s => (s.writeV 0 7).writeI 0x400)).mem) := by decide +kernel

theorem witness_StepKeepsInv : ∃ s t : State, Inv s ∧ step s = .next t :=
  ⟨at300 0x1ABC id, _, ⟨by decide, by decide, by decide, by unfold StackInv; decide⟩, next_stateOr (s := State.reset) (by decide +kernel)⟩

theorem witness_CallsKeepInv : ∃ s t : State, Inv s ∧ call .tick s = .next (t, .nothing) ∧ t.halted = none :=
  ⟨at300 0x1ABC id, State.tick (at300 0x1ABC id), ⟨by decide, by decide, by decide, by unfold StackInv; decide⟩, rfl, rfl⟩

theorem witness_ReadAfterWrite : State.reset.mem.wf = true ∧ 0xFFF ≤ 0xFFF ∧ (0xFFE : Nat) ≠ 0xFFF := by decide

theorem witness_MemoriesThatReadAlikeAreEqual :
    ∃ m n : Memory, m.wf = true ∧ n.wf = true ∧ m.font = n.font ∧ (∀ a, a ≤ 0xFFF → m.read a = n.read a) ∧
      n = (State.reset.mem.write 0x300 7) :=
  ⟨(State.reset.mem.write 0x300 5).write 0x300 7, State.reset.mem.write 0x300 7, by decide, by decide, by decide,
    fun a _ => congrArg (Memory.read · a) (by decide), rfl⟩

theorem witness_ConstructionState :
    (∃ s, s = State.construct Config.defaultFont 7) ∧ (79 : Nat) < 80 ∧ 80 ≤ (80 : Nat) := ⟨⟨_, rfl⟩, by decide⟩

theorem witness_RomLoad :
    State.reset.halted = none ∧ (∃ rom : List Byte, rom.length = 3585) ∧
    (∃ rom : List Byte, rom.length = 3584) :=
  ⟨rfl, ⟨List.replicate 3585 0, List.length_replicate⟩, ⟨List.replicate 3584 0, List.length_replicate⟩⟩

theorem witness_TickKeysAndPolls : State.reset.halted = none ∧ (16 : Nat) > 15 := by decide

theorem witness_RgbaLayout : State.reset.halted = none := by decide

end Sys2Proof.Tests
end

section
/-! What each operation of the core may change, one rule each, stated for any set `may` of parts that holds at least the
operation's own; then the frames of the instructions, which compose these rules (spec/00_scope.md R14). -/

namespace Sys2Proof.Machine

/-! ## The frame rules -/

section Rules

variable {may : Part → Prop} {s t u : State}

theorem ChangesOnly.refl : ChangesOnly may s s := fun p _ => by cases p <;> rfl

theorem ChangesOnly.trans (hst : ChangesOnly may s t) (htu : ChangesOnly may t u) : ChangesOnly may s u := fun p hp => by
  have h1 := hst p hp
  have h2 := htu p hp
  cases p <;> exact Eq.trans h2 h1

theorem ChangesOnly.resolve {d : Disposition} (hpc : may .pc) : ChangesOnly may s (s.resolve d) := fun p hp => by
  cases p with
  | pc => exact absurd hpc hp
  | _ => simp [SamePart]

theorem ChangesOnly.writeV {x : Reg} {b : Byte} (hx : may (.v x)) : ChangesOnly may s (s.writeV x b) := fun p hp => by
  cases p with
  | v y =>
    have hyx : y ≠ x := fun h => hp (h ▸ hx)
    exact s.readV_writeV_ne hyx b
  | _ => rfl

theorem ChangesOnly.writeFlag {c : Bool} (hf : may (.v flagReg)) : ChangesOnly may s (s.writeFlag c) := .writeV hf

theorem ChangesOnly.writeI {w : Word} (hi : may .i) : ChangesOnly may s (s.writeI w) := fun p hp => by
  cases p with
  | i => exact absurd hi hp
  | _ => rfl

theorem ChangesOnly.writeDt {b : Byte} (hdt : may .dt) : ChangesOnly may s (s.writeDt b) := fun p hp => by
  cases p with
  | dt => exact absurd hdt hp
  | _ => rfl

theorem ChangesOnly.writeSt {b : Byte} (hst : may .st) : ChangesOnly may s (s.writeSt b) := fun p hp => by
  cases p with
  | st => exact absurd hst hp
  | _ => rfl

theorem ChangesOnly.drawRand (hd : may .draws) : ChangesOnly may s s.drawRand.2 := fun p hp => by
  cases p with
  | draws => exact absurd hd hp
  | _ => rfl

theorem ChangesOnly.popReturn (hsp : may .sp) : ChangesOnly may s s.popReturn.2 := fun p hp => by
  cases p with
  | sp => exact absurd hsp hp
  | _ => simp [SamePart]

/-- The effect of a push: a new SP, and `w` in slot `j` (R157). -/
theorem ChangesOnly.push {j sp' : Fin 16} {w : Word} (hj : may (.slot j)) (hsp : may .sp) :
    ChangesOnly may s { s with sp := sp', stack := s.stack.set j w } := fun p hp => by
  cases p with
  | sp => exact absurd hsp hp
  | slot k =>
    have hjk : j.val ≠ k.val := fun h => hp (Fin.ext h ▸ hj)
    simp [SamePart, State.slot, hjk]
  | _ => rfl

theorem ChangesOnly.fbClear (hcell : ∀ cx cy, may (.cell cx cy)) (hsig : may .sig) : ChangesOnly may s s.fbClear :=
  fun p hp => by
  cases p with
  | cell cx cy => exact absurd (hcell cx cy) hp
  | sig => exact absurd hsig hp
  | _ => rfl

theorem ChangesOnly.plot {q : Fin 64 × Fin 32} (hcell : may (.cell q.1 q.2)) (hf : may (.v flagReg)) (hsig : may .sig) :
    ChangesOnly may s (s.plot q) := fun p hp => by
  cases p with
  | cell cx cy =>
    have hq : q ≠ (cx, cy) := by rintro rfl; exact hp hcell
    simp [SamePart, State.plot_cell, hq]
  | v y =>
    have hy : flagReg ≠ y := fun h => hp (h ▸ hf)
    simp [SamePart, State.plot_readV, hy]
  | sig => exact absurd hsig hp
  | _ => simp [SamePart]

theorem ChangesOnly.foldl_plot {ps : List (Fin 64 × Fin 32)} (hcell : ∀ q ∈ ps, may (.cell q.1 q.2))
    (hf : may (.v flagReg)) (hsig : may .sig) : ChangesOnly may s (ps.foldl State.plot s) := by
  induction ps generalizing s with
  | nil => exact .refl
  | cons q ps ih =>
    obtain ⟨hq, hps⟩ := List.forall_mem_cons.1 hcell
    exact (ChangesOnly.plot hq hf hsig).trans (ih hps)

/-- A block store changes the bytes of its block (R76). -/
theorem ChangesOnly.writeBytes {base : Nat} {bs : List Byte} (hwf : s.mem.wf = true) (hb : base + bs.length ≤ 0x1000)
    (hmem : ∀ k < bs.length, may (.mem (base + k))) :
    ChangesOnly may s { s with mem := s.mem.writeBytes base bs } := fun p hp => by
  cases p with
  | mem a =>
    have hout : base ≤ a → bs.length ≤ a - base := fun hle => by
      by_contra hlt
      exact hp (Nat.add_sub_cancel' hle ▸ hmem (a - base) (by omega))
    simp +contextual [SamePart, Memory.read_writeBytes hwf hb, hout]
  | font => exact Memory.writeBytes_font base bs s.mem
  | _ => rfl

theorem ChangesOnly.writeVs {first : Nat} {bs : List Byte}
    (hv : ∀ k : Reg, first ≤ k.val → k.val < first + bs.length → may (.v k)) :
    ChangesOnly may s (s.writeVs first bs) := fun p hp => by
  obtain ⟨v, hfields⟩ := s.writeVs_fields first bs
  cases p with
  | v y =>
    have hout : first ≤ y.val → bs.length ≤ y.val - first := fun hle => by
      by_contra hlt
      exact hp (hv y hle (by omega))
    simp +contextual [SamePart, State.writeVs_readV, hout]
  | _ => rw [hfields]; rfl

/-- An instruction that ends with `complete` changes what led up to it, and PC. -/
theorem ChangesOnly.complete {d : Disposition} (hpc : may .pc) (h : complete d t = .next u) (hst : ChangesOnly may s t) :
    ChangesOnly may s u :=
  complete_next.1 h ▸ hst.trans (.resolve hpc)

end Rules

/-- The pixels DRW plots are the cells its set bits touch. -/
theorem mem_spritePixels_iff_spriteTouches {s : State} {x y : Reg} {n : Nat} {p : Fin 64 × Fin 32} :
    p ∈ spritePixels (s.readV x) (s.readV y) 0 (s.mem.readBytes s.i.toNat n) ↔ SpriteTouches s x y n p.1 p.2 := by
  rw [mem_spritePixels]
  constructor
  · rintro ⟨r, c, row, hrow, hc, hbit, rfl⟩
    rw [Memory.readBytes_getElem?] at hrow
    obtain ⟨hr, ⟨⟩⟩ := Option.ite_none_right_eq_some.1 hrow
    exact ⟨r, c, hr, hc, hbit, rfl, by rw [spriteRow, Nat.zero_add]⟩
  · rintro ⟨r, c, hr, hc, hbit, hcol, hrow⟩
    refine ⟨r, c, _, by rw [Memory.readBytes_getElem?, if_pos hr], hc, hbit, Prod.ext (Fin.ext hcol.symm) (Fin.ext ?_)⟩
    simp [spriteRow, hrow]

/-! ## The frames of the instructions -/

/-- Settles O49, by the frame rules of clear and of a list of plotted pixels, which are the touched cells. -/
theorem frameFramebuffer : Obligations.FrameFramebuffer := by
  intro x y n s t _
  constructor
  · exact fun h => .complete (.inr (.inr rfl)) h (.fbClear (fun cx cy => .inl ⟨cx, cy, rfl⟩) (.inr (.inl rfl)))
  · intro h
    obtain ⟨-, rfl⟩ := exec_drw_next h
    refine ((ChangesOnly.writeFlag (.inr (.inl rfl))).trans (.foldl_plot (fun q hq => ?_)
      (.inr (.inl rfl)) (.inr (.inr (.inl rfl))))).trans (.resolve (.inr (.inr (.inr rfl))))
    exact .inl ⟨q.1, q.2, mem_spritePixels_iff_spriteTouches.1 hq, rfl⟩

/-- Settles O50, by the frame rules of the block store and of the block load. -/
theorem frameMemoryTransfers : Obligations.FrameMemoryTransfers := by
  intro x s t hwf
  refine ⟨fun h => ?_, fun h => ?_, fun h => ?_⟩
  · obtain ⟨hr, rfl⟩ := exec_ldBVx_next h
    refine (ChangesOnly.writeBytes hwf hr fun k hk => .inl ⟨k, ?_, rfl⟩).trans (.resolve (.inr rfl))
    exact Nat.le_of_lt_succ hk
  · obtain ⟨hr, rfl⟩ := exec_ldMemVx_next h
    have hlen := s.readVs_length x
    refine ((ChangesOnly.writeBytes hwf (by omega) fun k hk => .inl ⟨k, by omega, rfl⟩).trans
      (.writeI (.inr (.inl rfl)))).trans (.resolve (.inr (.inr rfl)))
  · obtain ⟨-, rfl⟩ := exec_ldVxMem_next h
    have hlen := s.mem.readBytes_length s.i.toNat (x.val + 1)
    exact ((ChangesOnly.writeVs fun k _ hk => .inl ⟨k, by omega, rfl⟩).trans
      (.writeI (.inr (.inl rfl)))).trans (.resolve (.inr (.inr rfl)))

/-- Settles O44: each of the eight completes from the state it began in, SKP and SKNP once their key is in range. -/
theorem frameJumpsAndSkips : Obligations.FrameJumpsAndSkips := by
  intro x y nn nnn s t h
  rcases h with h | h | h | h | h | h | h | h
  iterate 6 · exact .complete rfl h .refl
  · obtain ⟨c, rfl⟩ := exec_skp_next h
    exact .resolve rfl
  · obtain ⟨c, rfl⟩ := exec_sknp_next h
    exact .resolve rfl

/-- Settles O45: each completes from a state with V[x] written, but for a key wait that holds PC. -/
theorem frameRegisterWriters : Obligations.FrameRegisterWriters := by
  intro x y nn s t h
  rcases h with h | h | h | h | h | h | h | h
  iterate 7 · exact .complete (.inr rfl) h (.writeV (.inl rfl))
  · rcases exec_ldVxK_next h with ⟨-, rfl⟩ | ⟨k, -, rfl⟩
    · exact .resolve (.inr rfl)
    · exact (ChangesOnly.writeV (.inl rfl)).trans (.resolve (.inr rfl))

/-- Settles O46: each ends with `finishAlu`, which writes the result and then the flag (R194). -/
theorem frameFlagWriters : Obligations.FrameFlagWriters := by
  intro x y s t h
  have hfinish {r : Byte} {c : Bool} (h : finishAlu x r c s = .next t) :
      ChangesOnly (fun p => p = .v x ∨ p = .v 15 ∨ p = .pc) s t :=
    .complete (.inr (.inr rfl)) h ((ChangesOnly.writeV (.inl rfl)).trans (.writeFlag (.inr (.inl rfl))))
  rcases h with h | h | h | h | h <;> exact hfinish h

/-- Settles O47, one frame rule for each part the instruction names. -/
theorem frameIndexTimersRandom : Obligations.FrameIndexTimersRandom := by
  intro x nn nnn s t
  refine ⟨fun h => ?_, fun h => ?_, fun h => ?_, fun h => ?_, fun h => ?_⟩
  · rcases h with h | h <;> exact .complete (.inr rfl) h (.writeI (.inl rfl))
  · obtain ⟨-, rfl⟩ := exec_addIVx_next h
    exact ((ChangesOnly.writeI (.inl rfl)).trans (.writeFlag (.inr (.inl rfl)))).trans (.resolve (.inr (.inr rfl)))
  · exact .complete (.inr rfl) h (.writeDt (.inl rfl))
  · exact .complete (.inr rfl) h (.writeSt (.inl rfl))
  · exact .complete (.inr (.inr rfl)) h ((ChangesOnly.drawRand (.inr (.inl rfl))).trans (.writeV (.inl rfl)))

/-- Settles O48, by the frame rules of pop and push; which slot a push writes follows R157's test. -/
theorem frameCallStack : Obligations.FrameCallStack := by
  intro nnn s t
  constructor
  · exact fun h => .complete (.inr rfl) h (.popReturn (.inl rfl))
  · intro h j hj
    rcases exec_call_next h with ⟨h0, rfl⟩ | ⟨h0, hsp, rfl⟩
    · rw [if_pos h0] at hj
      obtain rfl : s.sp = j := Fin.ext hj
      exact (ChangesOnly.push (sp' := s.sp) (.inl rfl) (.inr (.inl rfl))).trans (.resolve (.inr (.inr rfl)))
    · rw [if_neg h0] at hj
      obtain ⟨k, hk⟩ := j
      subst hj
      exact (ChangesOnly.push (.inl rfl) (.inr (.inl rfl))).trans (.resolve (.inr (.inr rfl)))

end Sys2Proof.Machine
end

section
/-! What a completed instruction does to everything but V, I and the random source's position, said once: the parts it
writes and where it leaves PC (spec/40_cycle.md R140). From it, the invariant's step and the writers of each part. -/

namespace Sys2Proof.Machine

/-! ## What an instruction can do -/

/-- `Effect s i u`: before PC moves, the instruction `i` may turn `s` into `u`. V, I and the random source's position
take any value; every other part is written only by the instructions named here. A DRW that plots no pixel has the
effect `registers`. -/
inductive Effect (s : State) : Instr → State → Prop where
  | registers {i : Instr} (v : Vector Byte 16) (index : Word) (draws : Nat) :
      Effect s i { s with v := v, i := index, draws := draws }
  | clear : Effect s .cls s.fbClear
  | draw {x y : Reg} {n : Nat} (v : Vector Byte 16) (fb : Grid) :
      Effect s (.drw x y n) { s with v := v, fb := fb, sig := .drew }
  | delayTimer {x : Reg} (b : Byte) : Effect s (.ldDtVx x) (s.writeDt b)
  | soundTimer {x : Reg} (b : Byte) : Effect s (.ldStVx x) (s.writeSt b)
  | push {nnn : Addr12} (j : Fin 16) (hj : j = s.sp ∨ s.slot s.sp ≠ 0 ∧ j.val = s.sp.val + 1) :
      Effect s (.call nnn) { s with sp := j, stack := s.stack.set j (s.pc + 2) }
  | pop : Effect s .ret s.popReturn.2
  | storeDigits {x : Reg} (m : Memory) : Effect s (.ldBVx x) { s with mem := m }
  | storeRegisters {x : Reg} (m : Memory) (index : Word) : Effect s (.ldMemVx x) { s with mem := m, i := index }

/-- The dispositions an instruction can end with from `s`. A jump holds PC, goes to the return slot, or goes to an
address up to the largest sum of JP_V0, 0xFFF + 0xFF (spec/10_state.md R34). -/
def Disposition.Lands (s : State) : Disposition → Prop
  | .next | .skip => True
  | .jump w => w = s.pc ∨ w = s.slot s.sp ∨ w.toNat ≤ 0x10FE

theorem skipIf_lands (s : State) (c : Bool) : (skipIf c).Lands s := by cases c <;> trivial

theorem jump_nnn_lands (s : State) (nnn : Addr12) : (Disposition.jump nnn.zext16).Lands s := by
  refine .inr (.inr ?_)
  simp only [Addr12.zext16, BitVec.toNat_setWidth]
  omega

theorem jump_offsetTarget_lands (s : State) (nnn : Addr12) (b : Byte) :
    (Disposition.jump (offsetTarget nnn b)).Lands s := by
  refine .inr (.inr ?_)
  simp only [offsetTarget, BitVec.toNat_ofNat]
  omega

/-- `t` is an effect of `i` on `s`, with a disposition applied that `i` can end with from `s`. -/
def Completes (i : Instr) (s t : State) : Prop := ∃ u d, Effect s i u ∧ Disposition.Lands s d ∧ u.resolve d = t

theorem Effect.completes {i : Instr} {s t u : State} {d : Disposition} (he : Effect s i u)
    (h : complete d u = .next t) (hd : d.Lands s) : Completes i s t :=
  ⟨u, d, he, hd, complete_next.1 h⟩

theorem exec_drw_completes {x y : Reg} {n : Nat} {s t : State} (h : exec (.drw x y n) s = .next t) :
    Completes (.drw x y n) s t := by
  obtain ⟨-, rfl⟩ := exec_drw_next h
  generalize spritePixels (s.readV x) (s.readV y) 0 (s.mem.readBytes s.i.toNat n) = ps
  cases ps with
  | nil => exact (Effect.registers _ s.i s.draws).completes rfl trivial
  | cons p ps =>
    obtain ⟨v, fb, sig, hfields⟩ := foldl_plot_fields (p :: ps) (s.writeFlag false)
    have hsig : sig = .drew := by simpa [hfields] using foldl_plot_sig (p :: ps) (s.writeFlag false)
    rw [hfields, hsig]
    exact (Effect.draw v fb).completes rfl trivial

/-- Every instruction that completes does so by one of its effects. -/
theorem exec_completes {i : Instr} {s t : State} (h : exec i s = .next t) : Completes i s t := by
  cases i
  case cls => exact Effect.clear.completes h trivial
  case ret => exact Effect.pop.completes h (.inr (.inl rfl))
  case call nnn =>
    rcases exec_call_next h with ⟨-, rfl⟩ | ⟨hslot, hsp, rfl⟩
    · exact (Effect.push s.sp (.inl rfl)).completes rfl (jump_nnn_lands s nnn)
    · exact (Effect.push ⟨s.sp.val + 1, by omega⟩ (.inr ⟨hslot, rfl⟩)).completes rfl (jump_nnn_lands s nnn)
  case jp nnn => exact (Effect.registers _ _ _).completes h (jump_nnn_lands s nnn)
  case jpV0 nnn => exact (Effect.registers _ _ _).completes h (jump_offsetTarget_lands s nnn _)
  case seImm | sneImm | seReg | sneReg => exact (Effect.registers _ _ _).completes h (skipIf_lands s _)
  case skp x =>
    obtain ⟨c, rfl⟩ := exec_skp_next h
    exact (Effect.registers _ _ _).completes rfl (skipIf_lands s c)
  case sknp x =>
    obtain ⟨c, rfl⟩ := exec_sknp_next h
    exact (Effect.registers _ _ _).completes rfl (skipIf_lands s c)
  case ldVxK x =>
    rcases exec_ldVxK_next h with ⟨-, rfl⟩ | ⟨k, -, rfl⟩
    · exact (Effect.registers _ _ _).completes rfl (.inl rfl)
    · exact (Effect.registers _ _ _).completes rfl trivial
  case drw x y n => exact exec_drw_completes h
  case ldDtVx x => exact (Effect.delayTimer _).completes h trivial
  case ldStVx x => exact (Effect.soundTimer _).completes h trivial
  case addIVx x =>
    obtain ⟨-, rfl⟩ := exec_addIVx_next h
    exact (Effect.registers _ _ _).completes rfl trivial
  case ldBVx x =>
    obtain ⟨-, rfl⟩ := exec_ldBVx_next h
    exact (Effect.storeDigits _).completes rfl trivial
  case ldMemVx x =>
    obtain ⟨-, rfl⟩ := exec_ldMemVx_next h
    exact (Effect.storeRegisters _ _).completes rfl trivial
  case ldVxMem x =>
    obtain ⟨-, rfl⟩ := exec_ldVxMem_next h
    obtain ⟨v, hfields⟩ := s.writeVs_fields 0 (s.mem.readBytes s.i.toNat (x.val + 1))
    rw [hfields]
    exact (Effect.registers v _ _).completes rfl trivial
  all_goals exact (Effect.registers _ _ _).completes h trivial

/-! ## The invariant -/

section
variable {i : Instr} {s u : State}

theorem Effect.pc_eq (he : Effect s i u) : u.pc = s.pc := by cases he <;> simp

/-- PC stays within R34's range: a fetched PC is at most 0xFFE, and a skip adds 4. -/
theorem State.resolve_pc_le {d : Disposition} (hu : u.pc = s.pc) (hfetch : s.pc.toNat + 1 ≤ 0xFFF)
    (hslot : (s.slot s.sp).toNat ≤ 0x1000) (hd : d.Lands s) : (u.resolve d).pc.toNat ≤ 0x10FE := by
  cases d with
  | next => rw [State.resolve_next_pc, hu]; bv_omega
  | skip => rw [State.resolve_skip_pc, hu]; bv_omega
  | jump w =>
    rw [State.resolve_jump_pc]
    rcases hd with rfl | rfl | hw <;> omega

theorem State.slot_push (s : State) (j k sp' : Fin 16) (w : Word) :
    State.slot { s with sp := sp', stack := s.stack.set j w } k = if j = k then w else s.slot k := by
  simp [State.slot, Vector.getElem_set, Fin.ext_iff]

/-- A slot a push writes holds a return address, at most 0x1000 (R154). -/
theorem Effect.slots_le (he : Effect s i u) (hfetch : s.pc.toNat + 1 ≤ 0xFFF)
    (hslots : ∀ j, (s.slot j).toNat ≤ 0x1000) (k : Fin 16) : (u.slot k).toNat ≤ 0x1000 := by
  cases he
  case push nnn j hj =>
    rw [State.slot_push]
    split
    · bv_omega
    · exact hslots k
  case pop => rw [State.popReturn_slot]; exact hslots k
  all_goals exact hslots k

/-- A push moves SP past a nonzero slot only and leaves it at a return address, which is nonzero (R156, R157); a pop
lowers SP and keeps the slots (R160). -/
theorem Effect.stackInv (he : Effect s i u) (hfetch : s.pc.toNat + 1 ≤ 0xFFF) (hinv : StackInv s) : StackInv u := by
  cases he
  case push nnn j hj =>
    intro k hk hpos
    change k.val ≤ j.val at hk
    change 0 < j.val at hpos
    rw [State.slot_push]
    split
    case isTrue => bv_omega
    case isFalse hjk =>
      have hlt : k.val < j.val := by omega
      rcases hj with rfl | ⟨hslot, hj⟩
      · exact hinv k hk hpos
      · by_cases hsp : k = s.sp
        · exact hsp ▸ hslot
        · exact hinv k (by omega) (by omega)
  case pop =>
    intro k hk hpos
    rw [State.popReturn_sp_val] at hk hpos
    rw [State.popReturn_slot]
    exact hinv k (by omega) (by omega)
  all_goals exact hinv

end

/-- Settles O52: memory by the canonical form every instruction keeps, PC by the disposition and the stack by the effect
of the instruction that ran. -/
theorem stepKeepsInv : Obligations.StepKeepsInv := by
  rintro s t ⟨hmem, -, hslots, hstack⟩ hstep
  obtain ⟨-, op, i, u, hfetch, -, hexec, rfl⟩ := step_next.1 hstep
  have hrange := State.fetch_range hfetch
  have hmem' := exec_keeps_wf hmem hexec
  obtain ⟨w, d, he, hd, rfl⟩ := exec_completes hexec
  exact {
    memory := hmem'
    pc := State.resolve_pc_le he.pc_eq hrange (hslots s.sp) hd
    slots := fun j => by simpa using he.slots_le hrange hslots j
    stack := fun j => by simpa using he.stackInv hrange hstack j }

/-! ## The writers of each part -/

/-- A step by `i` executes `i` and records it. -/
theorem StepsBy.exec_record {i : Instr} {s t : State} (h : StepsBy i s t) :
    s.halted = none ∧ ∃ op u, exec i s = .next u ∧ t = u.record i op := by
  obtain ⟨hstep, op, hfetch, hdecode⟩ := h
  obtain ⟨hrunning, op', i', u, hfetch', hdecode', hexec, rfl⟩ := step_next.1 hstep
  cases hfetch.symm.trans hfetch'
  cases hdecode.symm.trans hdecode'
  exact ⟨hrunning, op, u, hexec, rfl⟩

/-- Settles O51: an effect that writes one of these parts names its instruction, and neither the disposition nor the
record writes any of them. -/
theorem whoMayWriteWhat : Obligations.WhoMayWriteWhat := by
  intro i s t h
  obtain ⟨hrunning, op, u, hexec, rfl⟩ := h.exec_record
  obtain ⟨w, d, he, -, rfl⟩ := exec_completes hexec
  cases he <;> simp [hrunning]

end Sys2Proof.Machine
end

section
/-! Memory seen through reads (spec/20_memory.md): the canonical form, what a block store leaves for a later load and
fetch, and where an access through I stops. -/

namespace Sys2Proof.Machine

/-! ## Canonical memory -/

/-- Settles O55, by the rules of a write: it keeps the canonical form, and a read after it. -/
theorem readAfterWrite : Obligations.ReadAfterWrite := by
  intro m a k b hwf ha
  refine ⟨Memory.wf_write hwf ha b, ?_, fun hk => ?_⟩
  · rw [Memory.read_write hwf, if_pos rfl]
  · rw [Memory.read_write hwf, if_neg hk]

/-- A canonical memory lists nothing above the address space (R70). -/
theorem Memory.read_above {m : Memory} (hwf : m.wf = true) {a : Nat} (ha : 0xFFF < a) :
    m.read a = Memory.unlisted m.font a := by
  have hnone : lookupCell a m.cells = none := Option.eq_none_iff_forall_ne_some.2 fun b hb =>
    absurd (((Memory.wf_iff m).1 hwf).2 _ (lookupCell_mem hb)).1 (Nat.not_le.2 ha)
  rw [Memory.read, hnone, Option.getD_none]

/-- Settles O56: above 0xFFF canonical memories with one font read alike, so they read alike everywhere. -/
theorem memoriesThatReadAlikeAreEqual : Obligations.MemoriesThatReadAlikeAreEqual := by
  intro m n hm hn hfont hread
  refine Memory.eq_of_read hm hn hfont fun a => ?_
  by_cases ha : a ≤ 0xFFF
  · exact hread a ha
  · rw [Memory.read_above hm (by omega), Memory.read_above hn (by omega), hfont]

/-! ## Fetch -/

/-- Two bytes fit in a word, so composing them loses nothing (R73). -/
theorem composeWord_toNat (hi lo : Byte) : (composeWord hi lo).toNat = hi.toNat * 256 + lo.toNat := by
  have hhi := hi.isLt
  have hlo := lo.isLt
  rw [composeWord, BitVec.toNat_ofNat, Nat.mod_eq_of_lt (by omega)]

/-- Settles O6, by what a fetch in range answers. -/
theorem fetchIsBigEndian : Obligations.FetchIsBigEndian :=
  fun _ hrange => ⟨_, State.fetch_ok hrange, composeWord_toNat _ _⟩

/-! ## A block store and what reads it later -/

/-- A block load in range completes (R269). -/
theorem exec_ldVxMem_of_le {x : Reg} {s : State} (hrange : s.i.toNat + x.val + 1 ≤ 0x1000) :
    exec (.ldVxMem x) s =
      .next (((s.writeVs 0 (s.mem.readBytes s.i.toNat (x.val + 1))).writeI (indexPast s.i x)).resolve .next) :=
  attempt_of_ok (State.loadBytes_ok (n := x.val + 1) (.inr hrange)) _

/-- Registers loaded from a block hold its bytes, in order. -/
theorem State.readV_writeVs_readBytes {s : State} {m : Memory} {base n : Nat} {k : Reg} (hk : k.val < n) :
    (s.writeVs 0 (m.readBytes base n)).readV k = m.read (base + k.val) := by
  rw [State.writeVs_readV, if_pos (Nat.zero_le _), Nat.sub_zero, Memory.readBytes_getElem?, if_pos hk, Option.getD_some]

/-- The memory a block store leaves holds V0..Vx from I on (R268). -/
theorem exec_ldMemVx_read {x k : Reg} {s t : State} (hwf : s.mem.wf = true) (h : exec (.ldMemVx x) s = .next t)
    (hk : k.val ≤ x.val) : t.mem.read (s.i.toNat + k.val) = s.readV k := by
  obtain ⟨hrange, rfl⟩ := exec_ldMemVx_next h
  have hblock : s.i.toNat + (s.readVs x).length ≤ 0x1000 := by rw [State.readVs_length]; omega
  simp [Memory.read_writeBytes hwf hblock, State.readVs_getElem? x s k hk]

/-- Settles O43: the store was in range, so the later load and fetch are, and both read what the store left. -/
theorem laterReadsSeeStoredBytes : Obligations.LaterReadsSeeStoredBytes := by
  intro x s t u hwf hstore hmem
  obtain ⟨hrange, -⟩ := exec_ldMemVx_next hstore
  have hstored {k : Reg} (hk : k.val ≤ x.val) : u.mem.read (s.i.toNat + k.val) = s.readV k :=
    hmem ▸ exec_ldMemVx_read hwf hstore hk
  constructor
  · intro hi
    refine ⟨_, exec_ldVxMem_of_le (by rwa [hi]), fun k hk => ?_⟩
    rw [State.resolve_readV, State.writeI_readV, State.readV_writeVs_readBytes (by omega), hi, hstored hk]
  · intro hpc hx
    obtain ⟨op, hfetch, hop⟩ := fetchIsBigEndian u (by rw [hpc]; omega)
    rw [hpc] at hop
    exact ⟨op, hfetch, by rw [hop, ← hstored (Nat.zero_le _), ← hstored (k := 1) hx]; rfl⟩

/-! ## The range rule -/

/-- Settles O42: each of the four accesses I as one block, and the range rule refuses the block (R72). -/
theorem accessBeyondMemoryIsFatal : Obligations.AccessBeyondMemoryIsFatal := by
  intro s x y
  refine ⟨fun n hn hout => ?_, fun hout => ?_, fun hout => ⟨?_, ?_⟩⟩
  · exact attempt_of_error (State.loadBytes_error hn (by omega)) _
  · exact attempt_of_error (State.storeBytes_error (by simp) (by rw [bcdDigits_length]; omega)) _
  · exact attempt_of_error (State.storeBytes_error (by simp) (by rw [State.readVs_length]; omega)) _
  · exact attempt_of_error (State.loadBytes_error (Nat.succ_ne_zero _) (by omega)) _

end Sys2Proof.Machine
end

section
/-! The decoder and the encoder against each other (spec/30_encoding.md): which words decode, what a legal word's
encoding is, how many words are legal. -/

namespace Sys2Proof

/-! ## Decoding an encoding -/

/-- Settles O1, one constructor of `Instr` at a time: each format gives back the fields it was written from. -/
theorem decodeOfEncode : Obligations.DecodeOfEncode := fun i =>
  match i with
  | .cls => Laws.DecodeEncode.cls
  | .ret => Laws.DecodeEncode.ret
  | .jp nnn => Laws.DecodeEncode.jp nnn
  | .call nnn => Laws.DecodeEncode.call nnn
  | .seImm x nn => Laws.DecodeEncode.seImm x nn
  | .sneImm x nn => Laws.DecodeEncode.sneImm x nn
  | .seReg x y => Laws.DecodeEncode.seReg x y
  | .ldImm x nn => Laws.DecodeEncode.ldImm x nn
  | .addImm x nn => Laws.DecodeEncode.addImm x nn
  | .ldReg x y => Laws.DecodeEncode.ldReg x y
  | .orReg x y => Laws.DecodeEncode.orReg x y
  | .andReg x y => Laws.DecodeEncode.andReg x y
  | .xorReg x y => Laws.DecodeEncode.xorReg x y
  | .addReg x y => Laws.DecodeEncode.addReg x y
  | .sub x y => Laws.DecodeEncode.sub x y
  | .shr x y => Laws.DecodeEncode.shr x y
  | .subn x y => Laws.DecodeEncode.subn x y
  | .shl x y => Laws.DecodeEncode.shl x y
  | .sneReg x y => Laws.DecodeEncode.sneReg x y
  | .ldI nnn => Laws.DecodeEncode.ldI nnn
  | .jpV0 nnn => Laws.DecodeEncode.jpV0 nnn
  | .rnd x nn => Laws.DecodeEncode.rnd x nn
  | .drw x y n => Laws.DecodeEncode.drw x y n
  | .skp x => Laws.DecodeEncode.skp x
  | .sknp x => Laws.DecodeEncode.sknp x
  | .ldVxDt x => Laws.DecodeEncode.ldVxDt x
  | .ldVxK x => Laws.DecodeEncode.ldVxK x
  | .ldDtVx x => Laws.DecodeEncode.ldDtVx x
  | .ldStVx x => Laws.DecodeEncode.ldStVx x
  | .addIVx x => Laws.DecodeEncode.addIVx x
  | .ldFVx x => Laws.DecodeEncode.ldFVx x
  | .ldBVx x => Laws.DecodeEncode.ldBVx x
  | .ldMemVx x => Laws.DecodeEncode.ldMemVx x
  | .ldVxMem x => Laws.DecodeEncode.ldVxMem x

/-- Settles O5: each word is the encoding of its instruction, so it decodes to it. -/
theorem sampleWordsDecode : Obligations.SampleWordsDecode :=
  ⟨decodeOfEncode .ret rfl, decodeOfEncode (.call 0x208) rfl, decodeOfEncode (.addImm 10 0x01) rfl,
    decodeOfEncode (.shl 3 7) rfl, decodeOfEncode (.drw 1 2 5) rfl, decodeOfEncode (.sknp 2) rfl,
    decodeOfEncode (.ldVxMem 15) rfl⟩

/-! ## A word from its fields -/

theorem fieldF_lt (op : Word) : fieldF op < 16 := by
  have := op.isLt
  unfold fieldF; omega

theorem formatA_of_fields {op : Word} {f : Nat} (hF : fieldF op = f) : (formatA f (fieldNNN op)).toNat = op.toNat := by
  rw [formatA_toNat f (hF ▸ fieldF_lt op)]
  simp only [fieldF, fieldNNN, BitVec.toNat_setWidth] at hF ⊢
  omega

theorem formatXB_of_fields {op : Word} {f : Nat} (hF : fieldF op = f) :
    (formatXB f (fieldX op) (fieldNN op)).toNat = op.toNat := by
  rw [formatXB_toNat f (hF ▸ fieldF_lt op)]
  simp only [fieldF, fieldX, fieldNN, BitVec.toNat_setWidth] at hF ⊢
  omega

/-- Whatever the last nibble `k`, the rest of an XY word is determined by its fields (R106). -/
theorem formatXY_of_fields {op : Word} {f k : Nat} (hF : fieldF op = f) (hk : k < 16) :
    (formatXY f (fieldX op) (fieldY op) k).toNat = op.toNat / 16 * 16 + k := by
  rw [formatXY_toNat f (hF ▸ fieldF_lt op) _ _ k hk]
  simp only [fieldF, fieldX, fieldY] at hF ⊢
  omega

theorem formatXYN_of_fields {op : Word} {f k : Nat} (hF : fieldF op = f) (hN : fieldN op = k) :
    (formatXY f (fieldX op) (fieldY op) k).toNat = op.toNat := by
  simp only [fieldN] at hN
  rw [formatXY_of_fields hF (by omega)]
  omega

theorem formatXS_of_fields {op : Word} {f k : Nat} (hF : fieldF op = f) (hS : selector op = k) :
    (formatXS f (fieldX op) k).toNat = op.toNat := by
  rw [formatXS_toNat f (hF ▸ fieldF_lt op) _ k (by simp only [selector] at hS; omega)]
  simp only [fieldF, fieldX, selector] at hF hS ⊢
  omega

/-! ## What the decoder answers -/

/-- The values of bits 3..0 that family 8 does not list (R107). -/
def unlisted8 : List Nat := [0x8, 0x9, 0xA, 0xB, 0xC, 0xD, 0xF]

/-- The values of bits 7..0 that family E lists (R108). -/
def selectorsE : List Nat := [0x9E, 0xA1]

/-- The values of bits 7..0 that family F lists (R109). -/
def selectorsF : List Nat := [0x07, 0x0A, 0x15, 0x18, 0x1E, 0x29, 0x33, 0x55, 0x65]

/-- The illegal words of R105, R107, R108 and R109, as numbers. -/
abbrev IllegalCode (w : Nat) : Prop :=
  (w / 4096 = 0x0 ∧ w ≠ 0x00E0 ∧ w ≠ 0x00EE) ∨
  (w / 4096 = 0x8 ∧ w % 16 ∈ unlisted8) ∨
  (w / 4096 = 0xE ∧ w % 256 ∉ selectorsE) ∨
  (w / 4096 = 0xF ∧ w % 256 ∉ selectorsF)

/-- The word itself, but with bits 3..0 cleared in families 5 and 9 (R106). -/
def canonicalCode (w : Nat) : Nat := if w / 4096 = 0x5 ∨ w / 4096 = 0x9 then w / 16 * 16 else w

section
variable {w : Nat}

theorem illegalCode_family0 (h : w / 4096 = 0x0) : IllegalCode w ↔ ¬(w = 0x00E0 ∨ w = 0x00EE) := by
  simp [IllegalCode, h]

theorem illegalCode_family8 (h : w / 4096 = 0x8) : IllegalCode w ↔ w % 16 ∈ unlisted8 := by
  simp [IllegalCode, h]

theorem illegalCode_familyE (h : w / 4096 = 0xE) : IllegalCode w ↔ w % 256 ∉ selectorsE := by
  simp [IllegalCode, h]

theorem illegalCode_familyF (h : w / 4096 = 0xF) : IllegalCode w ↔ w % 256 ∉ selectorsF := by
  simp [IllegalCode, h]

/-- The families without a selector hold no illegal word. -/
theorem not_illegalCode (h : w / 4096 ∉ [0x0, 0x8, 0xE, 0xF]) : ¬ IllegalCode w := by
  simp only [List.mem_cons, List.not_mem_nil, or_false, not_or] at h
  obtain ⟨h0, h8, hE, hF⟩ := h
  simp [IllegalCode, h0, h8, hE, hF]

end

/-- A right answer of the decoder for `op`: an illegal word is refused, a legal one gives a well-formed instruction
whose encoding is the canonical word. -/
inductive Answers (op : Word) : Except Reject Instr → Prop where
  | illegal {r : Reject} (hillegal : IllegalCode op.toNat) : Answers op (.error r)
  | legal {i : Instr} (hlegal : ¬ IllegalCode op.toNat) (hwf : i.wf = true)
      (hencode : (encode i).toNat = canonicalCode op.toNat) : Answers op (.ok i)

section
variable {op : Word} {f k : Nat} {i : Instr}

/-- Outside families 5 and 9 the encoding is the word itself (R112). -/
theorem Answers.exact (hF : fieldF op = f) (hlegal : ¬ IllegalCode op.toNat) (hwf : i.wf = true)
    (hencode : (encode i).toNat = op.toNat) (hf : f ∉ [0x5, 0x9] := by decide) : Answers op (.ok i) :=
  .legal hlegal hwf <| by
    subst hF
    rw [hencode, canonicalCode, if_neg (by simpa [fieldF] using hf)]

/-- A family without a selector whose format keeps every bit. -/
theorem Answers.noSelector (hF : fieldF op = f) (hwf : i.wf = true) (hencode : (encode i).toNat = op.toNat)
    (hf : f ∉ [0x0, 0x5, 0x8, 0x9, 0xE, 0xF] := by decide) : Answers op (.ok i) := by
  subst hF
  exact .exact rfl (not_illegalCode (by simp_all [fieldF])) hwf hencode (by simp_all)

/-- Families 5 and 9: the encoding has low nibble 0 (R106). -/
theorem Answers.freeNibble (hF : fieldF op = f) (hwf : i.wf = true)
    (hencode : encode i = formatXY f (fieldX op) (fieldY op) 0) (hf : f = 0x5 ∨ f = 0x9 := by decide) :
    Answers op (.ok i) := by
  have hcanonical : (encode i).toNat = canonicalCode op.toNat := by
    rw [hencode, formatXY_of_fields hF (by decide), canonicalCode, if_pos (by subst hF; exact hf)]; rfl
  subst hF
  have hfamily : fieldF op ∉ [0x0, 0x8, 0xE, 0xF] := by rcases hf with h | h <;> simp [h]
  exact .legal (not_illegalCode hfamily) hwf hcanonical

theorem decodeFamily0_answers (hF : fieldF op = 0x0) : Answers op (decodeFamily0 op) := by
  unfold decodeFamily0
  split
  case isTrue hcls => exact .exact hF (by simp [hcls]) rfl hcls.symm
  case isFalse hcls =>
    split
    case isTrue hret => exact .exact hF (by simp [hret]) rfl hret.symm
    case isFalse hret => exact .illegal ((illegalCode_family0 hF).2 (not_or.2 ⟨hcls, hret⟩))

/-- A listed selector of family 8. -/
theorem Answers.family8 (hF : fieldF op = 0x8) (hN : fieldN op = k) (hwf : i.wf = true)
    (hencode : encode i = formatXY 0x8 (fieldX op) (fieldY op) k)
    (hk : k ∉ unlisted8 := by decide) : Answers op (.ok i) :=
  .exact hF (fun h => hk (hN ▸ (illegalCode_family8 hF).1 h)) hwf (hencode ▸ formatXYN_of_fields hF hN)

theorem decodeFamily8_answers (hF : fieldF op = 0x8) : Answers op (decodeFamily8 op) := by
  unfold decodeFamily8
  split
  case h_10 =>
    have hlt : fieldN op < 16 := Nat.mod_lt _ (by decide)
    have hmem : fieldN op ∈ unlisted8 := by
      simp only [unlisted8, List.mem_cons, List.not_mem_nil, or_false]
      grind
    exact .illegal ((illegalCode_family8 hF).2 hmem)
  all_goals exact .family8 hF ‹fieldN op = _› rfl rfl

/-- A listed selector of family E. -/
theorem Answers.familyE (hF : fieldF op = 0xE) (hS : selector op = k) (hwf : i.wf = true)
    (hencode : encode i = formatXS 0xE (fieldX op) k) (hk : k ∈ selectorsE := by decide) : Answers op (.ok i) :=
  .exact hF (fun h => (illegalCode_familyE hF).1 h (by rwa [← hS] at hk)) hwf (hencode ▸ formatXS_of_fields hF hS)

theorem decodeFamilyE_answers (hF : fieldF op = 0xE) : Answers op (decodeFamilyE op) := by
  unfold decodeFamilyE
  split_ifs
  case neg => exact .illegal ((illegalCode_familyE hF).2 (by simp_all [selector, selectorsE]))
  all_goals exact .familyE hF ‹selector op = _› rfl rfl

/-- A listed selector of family F. -/
theorem Answers.familyF (hF : fieldF op = 0xF) (hS : selector op = k) (hwf : i.wf = true)
    (hencode : encode i = formatXS 0xF (fieldX op) k) (hk : k ∈ selectorsF := by decide) : Answers op (.ok i) :=
  .exact hF (fun h => (illegalCode_familyF hF).1 h (by rwa [← hS] at hk)) hwf (hencode ▸ formatXS_of_fields hF hS)

theorem decodeFamilyF_answers (hF : fieldF op = 0xF) : Answers op (decodeFamilyF op) := by
  unfold decodeFamilyF
  split_ifs
  case neg => exact .illegal ((illegalCode_familyF hF).2 (by simp_all [selector, selectorsF]))
  all_goals exact .familyF hF ‹selector op = _› rfl rfl

/-- The decode tree of R104, family by family. -/
theorem decode_answers (op : Word) : Answers op (decode op) := by
  have hF16 := fieldF_lt op
  unfold decode
  split
  case h_1 hF => exact decodeFamily0_answers hF
  case h_2 hF => exact .noSelector hF rfl (formatA_of_fields hF)
  case h_3 hF => exact .noSelector hF rfl (formatA_of_fields hF)
  case h_4 hF => exact .noSelector hF rfl (formatXB_of_fields hF)
  case h_5 hF => exact .noSelector hF rfl (formatXB_of_fields hF)
  case h_6 hF => exact .freeNibble hF rfl rfl
  case h_7 hF => exact .noSelector hF rfl (formatXB_of_fields hF)
  case h_8 hF => exact .noSelector hF rfl (formatXB_of_fields hF)
  case h_9 hF => exact decodeFamily8_answers hF
  case h_10 hF => exact .freeNibble hF rfl rfl
  case h_11 hF => exact .noSelector hF rfl (formatA_of_fields hF)
  case h_12 hF => exact .noSelector hF rfl (formatA_of_fields hF)
  case h_13 hF => exact .noSelector hF rfl (formatXB_of_fields hF)
  case h_14 hF =>
    have hn : fieldN op ≤ 15 := Nat.le_of_lt_succ (Nat.mod_lt _ (by decide))
    exact .noSelector hF (decide_eq_true hn) (formatXYN_of_fields hF rfl)
  case h_15 hF => exact decodeFamilyE_answers hF
  case h_16 =>
    have hF : fieldF op = 0xF := by grind
    exact decodeFamilyF_answers hF

end

/-- Settles O2: the decoder's answer on a legal word is well formed and encodes the canonical word. -/
theorem encodeOfDecode : Obligations.EncodeOfDecode := by
  intro op i h
  have hanswer := decode_answers op
  rw [h] at hanswer
  cases hanswer with
  | legal _ hwf hencode => exact ⟨hwf, hencode⟩

theorem decode_error_iff (op : Word) : (∃ r, decode op = .error r) ↔ IllegalCode op.toNat := by
  have hanswer := decode_answers op
  generalize decode op = answer at hanswer ⊢
  cases hanswer with
  | illegal hillegal => exact ⟨fun _ => hillegal, fun _ => ⟨_, rfl⟩⟩
  | legal hlegal => exact ⟨nofun, fun h => absurd h hlegal⟩

/-- Settles O3: a right answer refuses exactly the illegal words. -/
theorem decoderRefusesExactly : Obligations.DecoderRefusesExactly := decode_error_iff

/-! ## How many words are legal -/

/-- The words of a range cut into `a` blocks of `b`. -/
theorem countP_range_mul (p : Nat → Bool) (a b : Nat) :
    (List.range (a * b)).countP p =
      ((List.range a).map fun f => (List.range b).countP fun k => p (f * b + k)).sum := by
  induction a with
  | zero => simp
  | succ a ih =>
    rw [Nat.succ_mul, List.range_add, List.countP_append, ih, List.countP_map, List.range_succ, List.map_append,
      List.sum_append]
    simp [Function.comp_def]

/-- The words `decode` gives an instruction for, as numbers. -/
def legalCode (w : Nat) : Bool := decide ¬ IllegalCode w

theorem decode_isOk (op : Word) : (decode op).isOk = legalCode op.toNat := by
  have hanswer := decode_answers op
  generalize decode op = answer at hanswer ⊢
  cases hanswer with
  | illegal hillegal => exact (decide_eq_false (not_not_intro hillegal)).symm
  | legal hlegal => exact (decide_eq_true hlegal).symm

/-- How many words of a family are legal: the two of family 0, the listed selectors of families 8, E and F with each
operand, every word of the others (R110). -/
def legalInFamily : Nat → Nat
  | 0x0 => 1 * 2
  | 0x8 => 256 * 9
  | 0xE => 16 * 2
  | 0xF => 16 * 9
  | _ => 4096

/-- A range holds each member of a list of its numbers once. -/
theorem countP_range_mem {b : Nat} {listed : List Nat} (hnodup : listed.Nodup) (hlt : ∀ k ∈ listed, k < b) :
    (List.range b).countP (· ∈ listed) = listed.length := by
  rw [List.countP_eq_length_filter]
  refine ((List.perm_ext_iff_of_nodup (List.nodup_range.filter _) hnodup).2 fun k => ?_).length_eq
  simpa using hlt k

/-- A family that selects on the word modulo `b` has each listed selector with each of the 4096 / b operands. -/
theorem countP_legalCode_selected {f a b : Nat} {listed : List Nat} (hab : a * b = 4096) (hnodup : listed.Nodup)
    (hlt : ∀ k ∈ listed, k < b) (hlegal : ∀ k < 4096, ¬ IllegalCode (f * 4096 + k) ↔ k % b ∈ listed) :
    (List.range 4096).countP (fun k => legalCode (f * 4096 + k)) = a * listed.length := by
  calc _ = (List.range (a * b)).countP (· % b ∈ listed) := by
        rw [hab]
        exact List.countP_congr fun k hk => by simp [legalCode, hlegal k (List.mem_range.1 hk)]
    _ = ((List.range a).map fun _ => (List.range b).countP (· ∈ listed)).sum := by
        rw [countP_range_mul]
        refine congrArg List.sum (List.map_congr_left fun q _ => List.countP_congr fun k hk => ?_)
        rw [Nat.mul_add_mod_self_right, Nat.mod_eq_of_lt (List.mem_range.1 hk)]
    _ = a * listed.length := by simp [countP_range_mem hnodup hlt]

theorem countP_legalCode_family {f : Nat} (hf : f < 16) :
    (List.range 4096).countP (fun k => legalCode (f * 4096 + k)) = legalInFamily f := by
  have hfamily {k : Nat} (hk : k < 4096) : (f * 4096 + k) / 4096 = f := by omega
  unfold legalInFamily
  split
  case h_1 =>
    refine countP_legalCode_selected (b := 4096) (listed := [0x00E0, 0x00EE]) rfl (by decide) (by decide) fun k hk => ?_
    rw [illegalCode_family0 (hfamily hk), not_not, Nat.mod_eq_of_lt hk, Nat.zero_mul, Nat.zero_add]
    simp only [List.mem_cons, List.not_mem_nil, or_false]
  case h_2 =>
    refine countP_legalCode_selected (b := 16) (listed := [0, 1, 2, 3, 4, 5, 6, 7, 0xE]) rfl (by decide) (by decide)
      fun k hk => ?_
    rw [illegalCode_family8 (hfamily hk)]
    simp only [unlisted8, List.mem_cons, List.not_mem_nil, or_false]
    omega
  case h_3 =>
    refine countP_legalCode_selected (b := 256) (listed := selectorsE) rfl (by decide) (by decide) fun k hk => ?_
    rw [illegalCode_familyE (hfamily hk), not_not, show (14 * 4096 + k) % 256 = k % 256 by omega]
  case h_4 =>
    refine countP_legalCode_selected (b := 256) (listed := selectorsF) rfl (by decide) (by decide) fun k hk => ?_
    rw [illegalCode_familyF (hfamily hk), not_not, show (15 * 4096 + k) % 256 = k % 256 by omega]
  case h_5 h0 h8 hE hF =>
    have hnone : ∀ k ∈ List.range 4096, legalCode (f * 4096 + k) = true := fun k hk =>
      decide_eq_true (not_illegalCode (by rw [hfamily (List.mem_range.1 hk)]; simp_all))
    rw [List.countP_eq_length.2 hnone, List.length_range]

/-- Settles O4: the words are 16 families of 4096, and each family's legal words are counted by its selectors. -/
theorem legalWordCount : Obligations.LegalWordCount := by
  have hlegal (w : Nat) (hw : w ∈ List.range 65536) : (decode (BitVec.ofNat 16 w)).isOk = legalCode w := by
    rw [decode_isOk, BitVec.toNat_ofNat, Nat.mod_eq_of_lt (List.mem_range.1 hw)]
  calc _ = (List.range (16 * 4096)).countP legalCode := by
        rw [List.countP_eq_length_filter]
        refine congrArg List.length (List.filter_congr fun w hw => ?_)
        rw [← hlegal w hw]
        cases decode (BitVec.ofNat 16 w) <;> rfl
    _ = ((List.range 16).map legalInFamily).sum := by
        rw [countP_range_mul]
        exact congrArg List.sum (List.map_congr_left fun f hf => countP_legalCode_family (List.mem_range.1 hf))
    _ = 51634 := by decide

end Sys2Proof

namespace Sys2Proof.Machine

/-- A step that fetches an illegal word raises DECODE with it (R111). -/
theorem step_of_decode_error {s : State} {op : Word} {r : Reject} (h0 : s.halted = none) (hf : s.fetch = .ok op)
    (hd : decode op = .error r) : step s = raise (.decode op) := by
  simp [step, cycleWith, h0, hf, hd]

/-- Settles O8: the decoder answers an instruction or refuses, and the step raises its refusal. -/
theorem illegalWordIsFatal : Obligations.IllegalWordIsFatal := by
  intro s op hrunning hfetch
  cases hd : decode op with
  | ok i => exact .inl ⟨i, rfl⟩
  | error r => exact .inr (step_of_decode_error hrunning hfetch hd)

end Sys2Proof.Machine
end

section
/-! The cycle (spec/40_cycle.md): where each instruction leaves PC (R140), that no step reads LAST (R137), and what a
step and the caller's cycle answer, a fatal halt included (R138, R139, R330). -/

namespace Sys2Proof.Machine

/-! ## The disposition of each instruction -/

theorem zext16_toNat (nnn : Addr12) : nnn.zext16.toNat = nnn.toNat := by
  rw [Addr12.zext16, BitVec.toNat_setWidth, Nat.mod_eq_of_lt (by omega)]

/-- A 12-bit address and a byte sum within 16 bits, so the target of JP_V0 does not wrap (R221). -/
theorem offsetTarget_toNat (nnn : Addr12) (b : Byte) : (offsetTarget nnn b).toNat = nnn.toNat + b.toNat := by
  rw [offsetTarget, BitVec.toNat_ofNat, Nat.mod_eq_of_lt (by omega)]

theorem State.resolve_skipIf_pc_or (s : State) (c : Bool) :
    (s.resolve (skipIf c)).pc = s.pc + 2 ∨ (s.resolve (skipIf c)).pc = s.pc + 4 := by
  cases c
  · exact .inl rfl
  · exact .inr rfl

theorem State.foldl_plot_pc (ps : List (Fin 64 × Fin 32)) (s : State) : (ps.foldl State.plot s).pc = s.pc := by
  obtain ⟨v, fb, sig, hfields⟩ := foldl_plot_fields ps s
  rw [hfields]

theorem State.writeVs_pc (first : Nat) (bs : List Byte) (s : State) : (s.writeVs first bs).pc = s.pc := by
  obtain ⟨v, hfields⟩ := s.writeVs_fields first bs
  rw [hfields]

/-- Settles O11: each instruction completes with its own disposition, from a state whose PC is still its address. -/
theorem dispositionByInstruction : Obligations.DispositionByInstruction := by
  intro i s t h
  cases i
  case ret => exact complete_next.1 h ▸ s.popReturn_value
  case jp nnn => exact complete_next.1 h ▸ zext16_toNat nnn
  case call nnn => rcases exec_call_next h with ⟨-, rfl⟩ | ⟨-, -, rfl⟩ <;> exact zext16_toNat nnn
  case jpV0 nnn => exact complete_next.1 h ▸ offsetTarget_toNat nnn (s.readV 0)
  case seImm | sneImm | seReg | sneReg => exact complete_next.1 h ▸ s.resolve_skipIf_pc_or _
  case skp x => obtain ⟨c, rfl⟩ := exec_skp_next h; exact s.resolve_skipIf_pc_or c
  case sknp x => obtain ⟨c, rfl⟩ := exec_sknp_next h; exact s.resolve_skipIf_pc_or c
  case ldVxK x =>
    rcases exec_ldVxK_next h with ⟨-, rfl⟩ | ⟨k, -, rfl⟩
    · exact .inr rfl
    · exact .inl rfl
  case drw x y n => obtain ⟨-, rfl⟩ := exec_drw_next h; simp [State.foldl_plot_pc]
  case addIVx x => obtain ⟨-, rfl⟩ := exec_addIVx_next h; rfl
  case ldBVx x => obtain ⟨-, rfl⟩ := exec_ldBVx_next h; rfl
  case ldMemVx x => obtain ⟨-, rfl⟩ := exec_ldMemVx_next h; rfl
  case ldVxMem x => obtain ⟨-, rfl⟩ := exec_ldVxMem_next h; simp [State.writeVs_pc]
  all_goals exact complete_next.1 h ▸ rfl

/-! ## LAST is never read

What an instruction reads of a state is the same whatever LAST holds, and what it writes leaves LAST alone: so `exec`
commutes with replacing LAST. The lemmas say this of each operation that branches or recurses. -/

/-- `LAST <- l`. -/
def State.withLast (l : Option LastInstr) (s : State) : State := { s with last := l }

/-- The same outcome, with LAST of the next state replaced. -/
def withLastAfter (l : Option LastInstr) : Result → Result
  | .next t => .next (t.withLast l)
  | .fault f => .fault f
  | .refused r => .refused r

section
variable (l : Option LastInstr) (s : State)

@[simp] theorem State.withLast_keys : (s.withLast l).keys = s.keys := rfl
@[simp] theorem State.withLast_halted : (s.withLast l).halted = s.halted := rfl
@[simp] theorem State.withLast_fetch : (s.withLast l).fetch = s.fetch := rfl

theorem State.resolve_withLast (d : Disposition) : (s.withLast l).resolve d = (s.resolve d).withLast l := by
  cases d <;> rfl

theorem State.popReturn_withLast : (s.withLast l).popReturn.2 = s.popReturn.2.withLast l := by
  simp only [State.popReturn, apply_ite (State.withLast l)]
  rfl

theorem State.pushReturn_withLast (ret : Word) :
    (s.withLast l).pushReturn ret = (s.pushReturn ret).map (State.withLast l) := by
  unfold State.pushReturn
  rw [apply_ite (Except.map _), apply_dite (Except.map _)]
  rfl

theorem State.storeBytes_withLast (base : Nat) (bs : List Byte) :
    (s.withLast l).storeBytes base bs = (s.storeBytes base bs).map (State.withLast l) := by
  unfold State.storeBytes
  cases checkRange base bs.length <;> rfl

theorem State.highestKey_withLast : (s.withLast l).highestKey = s.highestKey := by
  have hbelow (bound : Nat) : (s.withLast l).highestKeyBelow bound = s.highestKeyBelow bound := by
    induction bound with
    | zero => rfl
    | succ k ih => rw [State.highestKeyBelow, State.highestKeyBelow, ih, State.withLast_keys]
  exact hbelow 16

theorem State.plot_withLast (p : Fin 64 × Fin 32) : (s.withLast l).plot p = (s.plot p).withLast l := by
  unfold State.plot
  rw [apply_ite (State.withLast l)]
  rfl

theorem State.foldl_plot_withLast (ps : List (Fin 64 × Fin 32)) :
    ps.foldl State.plot (s.withLast l) = (ps.foldl State.plot s).withLast l :=
  List.foldl_hom (State.withLast l) fun t p => t.plot_withLast l p

theorem State.writeVs_withLast (first : Nat) (bs : List Byte) :
    (s.withLast l).writeVs first bs = (s.writeVs first bs).withLast l := by
  induction bs generalizing first s with
  | nil => rfl
  | cons b bs ih =>
    rw [State.writeVs, State.writeVs, ← ih]
    split <;> rfl

theorem complete_withLast (d : Disposition) : complete d (s.withLast l) = withLastAfter l (complete d s) :=
  congrArg Host.Outcome.next (s.resolve_withLast l d)

theorem attempt_withLast {α : Type} {r : Except Fatal α} {k k' : α → Result}
    (hk : ∀ a, k' a = withLastAfter l (k a)) : attempt r k' = withLastAfter l (attempt r k) := by
  cases r with
  | ok a => exact hk a
  | error cause => rfl

theorem attempt_map_withLast {r r' : Except Fatal State} {k k' : State → Result}
    (hr : r' = r.map (State.withLast l)) (hk : ∀ t, k' (t.withLast l) = withLastAfter l (k t)) :
    attempt r' k' = withLastAfter l (attempt r k) := by
  subst hr
  cases r with
  | ok t => exact hk t
  | error cause => rfl

theorem exec_withLast (i : Instr) : exec i (s.withLast l) = withLastAfter l (exec i s) := by
  cases i
  case ret =>
    change complete (.jump (s.slot s.sp)) (s.withLast l).popReturn.2 = _
    rw [State.popReturn_withLast, complete_withLast]
    rfl
  case call nnn => exact attempt_map_withLast l (s.pushReturn_withLast l _) fun t => complete_withLast l t _
  case seImm | sneImm | seReg | sneReg => exact complete_withLast l s _
  case skp x => exact attempt_withLast l fun k => complete_withLast l s _
  case sknp x => exact attempt_withLast l fun k => complete_withLast l s _
  case ldVxK x =>
    simp only [exec, execLdVxK, State.highestKey_withLast]
    cases s.highestKey <;> rfl
  case addIVx x => exact attempt_withLast l fun sum => rfl
  case drw x y n =>
    refine attempt_withLast l fun rows => ?_
    change complete .next (List.foldl State.plot ((s.writeFlag false).withLast l) _) = _
    rw [State.foldl_plot_withLast, complete_withLast]
    rfl
  case ldBVx x => exact attempt_map_withLast l (s.storeBytes_withLast l _ _) fun t => rfl
  case ldMemVx x => exact attempt_map_withLast l (s.storeBytes_withLast l _ _) fun t => rfl
  case ldVxMem x =>
    refine attempt_withLast l fun bs => ?_
    rw [State.writeVs_withLast]
    rfl
  all_goals rfl

/-- The record of a completed step overwrites whatever LAST the instruction carried along (R137). -/
theorem executeAndRecord_withLast (i : Instr) (op : Word) :
    executeAndRecord exec i op (s.withLast l) = executeAndRecord exec i op s := by
  unfold executeAndRecord
  rw [exec_withLast]
  cases exec i s <;> rfl

end

/-- Settles O12: HALTED and the fetch are the same whatever LAST holds, and so is what executing and recording
answers. -/
theorem lastIsNeverRead : Obligations.LastIsNeverRead := by
  intro s l
  change step (s.withLast l) = step s
  simp only [step, cycleWith, State.withLast_halted, State.withLast_fetch, executeAndRecord_withLast]

/-! ## What a step answers, and what the caller sees of it -/

section
variable {s t : State} {cause : Fatal}

theorem step_of_fetch_error (hrunning : s.halted = none) (hfetch : s.fetch = .error cause) :
    step s = .fault (.fatal cause) := by
  simp [step, cycleWith, hrunning, hfetch]

/-- A halted core has no step (R130). -/
theorem step_of_halted (h : s.halted = some cause) : step s = .fault (.halted cause) := by
  simp [step, cycleWith, h]

theorem call_of_running (hrunning : s.halted = none) (c : Call) : call c s = callRunning s c := by
  simp [call, hrunning]

/-- After a fatal halt only `construct` has a result (R330). -/
theorem call_of_halted (h : s.halted = some cause) (c : Call) :
    call c s = .fault (.halted cause) ∨ ∃ font rand, c = .construct font rand := by
  cases c
  case construct font rand => exact .inr ⟨font, rand, rfl⟩
  all_goals exact .inl (by simp [call, h])

theorem call_cycle_of_next (h : step s = .next t) : call .cycle s = .next (t, .nothing) := by
  obtain ⟨hrunning, -⟩ := step_next.1 h
  simp [call_of_running hrunning, callRunning, callCycle, h]

/-- The caller sees the halt of a cycle that raised a fatal (R139). -/
theorem call_cycle_of_fatal (hrunning : s.halted = none) (h : step s = .fault (.fatal cause)) :
    call .cycle s = .next (s.halt cause, .nothing) := by
  simp [call_of_running hrunning, callRunning, callCycle, h]

end

/-- Settles O7: the step is the decoded instruction executed and recorded, and a completed step is the caller's cycle. -/
theorem stepRunsDecodedInstruction : Obligations.StepRunsDecodedInstruction := by
  refine ⟨fun s op i hrunning hfetch hdecode => ?_, fun s t => call_cycle_of_next⟩
  rw [step_of_decode hrunning hfetch hdecode]
  constructor
  · intro t h
    rw [executeAndRecord, h]
    rfl
  · intro f h
    rw [executeAndRecord, h]

/-- Settles O9, by the rules of a step and of a call that cannot go on. -/
theorem fatalHaltIsTerminal : Obligations.FatalHaltIsTerminal := by
  refine ⟨fun s hrunning hpc => ?_, fun s cause hrunning h => ?_, fun s cause h => ?_⟩
  · exact step_of_fetch_error hrunning (State.fetch_error hpc)
  · exact ⟨_, call_cycle_of_fatal hrunning h, State.halt_halted s cause⟩
  · exact ⟨step_of_halted h, call_of_halted h⟩

end Sys2Proof.Machine
end

section
/-! The flow of control (spec/41_flow.md): what CLS, RET, JP and CALL leave, the stack across properly nested calls, and
slot 0 once it is nonzero (R161). -/

namespace Sys2Proof.Machine

/-! ## What CALL and RET leave of the stack -/

/-- From `s` to `t` a return address is pushed: SP advances past a nonzero slot only, the slot at the new SP takes
PC + 2, and the other slots stay (R154, R157). -/
structure Pushes (s t : State) : Prop where
  sp : t.sp.val = if s.slot s.sp = 0 then s.sp.val else s.sp.val + 1
  top : t.slot t.sp = s.pc + 2
  others : ∀ j, j ≠ t.sp → t.slot j = s.slot j

/-- From `s` to `t` a return address is popped: PC takes the slot at SP, SP is lowered unless it is 0, and every slot
stays (R159, R160). -/
structure Pops (s t : State) : Prop where
  pc : t.pc = s.slot s.sp
  sp : t.sp.val = s.sp.val - 1
  slots : ∀ j, t.slot j = s.slot j

section
variable {nnn : Addr12} {s t : State}

theorem pushes_push {j : Fin 16} (d : Disposition)
    (hj : j.val = if s.slot s.sp = 0 then s.sp.val else s.sp.val + 1) :
    Pushes s (State.resolve d { s with sp := j, stack := s.stack.set j (s.pc + 2) }) where
  sp := by rw [State.resolve_sp]; exact hj
  top := by rw [State.resolve_slot, State.resolve_sp, State.slot_push, if_pos rfl]
  others k hk := by
    rw [State.resolve_sp] at hk
    rw [State.resolve_slot, State.slot_push, if_neg (Ne.symm hk)]

theorem exec_call_pushes (h : exec (.call nnn) s = .next t) : Pushes s t := by
  rcases exec_call_next h with ⟨h0, rfl⟩ | ⟨h0, hsp, rfl⟩
  · exact pushes_push (j := s.sp) _ (if_pos h0).symm
  · exact pushes_push (j := ⟨s.sp.val + 1, by omega⟩) _ (if_neg h0).symm

theorem exec_call_readV (h : exec (.call nnn) s = .next t) (x : Reg) : t.readV x = s.readV x := by
  rcases exec_call_next h with ⟨-, rfl⟩ | ⟨-, -, rfl⟩ <;> exact State.resolve_readV _ _ x

/-- CALL completes when a slot is left for the return address: the one at SP, or the next (R157). -/
theorem exec_call_of_room (nnn : Addr12) (hroom : s.slot s.sp ≠ 0 → s.sp.val ≠ 15) :
    ∃ t, exec (.call nnn) s = .next t := by
  rcases State.pushReturn_cases (s.pc + 2) s with ⟨-, hpush⟩ | ⟨-, _, hpush⟩ | ⟨h0, h15, -⟩
  · exact ⟨_, attempt_of_ok hpush _⟩
  · exact ⟨_, attempt_of_ok hpush _⟩
  · exact absurd h15 (hroom h0)

/-- With no slot left CALL overflows (R158). -/
theorem exec_call_overflow (nnn : Addr12) (h0 : s.slot s.sp ≠ 0) (h15 : s.sp.val = 15) :
    exec (.call nnn) s = .fault (.fatal (.stackOverflow s.pc)) := by
  rcases State.pushReturn_cases (s.pc + 2) s with ⟨hzero, -⟩ | ⟨-, hlt, -⟩ | ⟨-, -, hpush⟩
  · exact absurd hzero h0
  · omega
  · exact attempt_of_error hpush _

theorem exec_ret (s : State) : exec .ret s = .next (s.popReturn.2.resolve (.jump (s.slot s.sp))) := rfl

theorem exec_ret_pops (h : exec .ret s = .next t) : Pops s t := by
  cases (exec_ret s).symm.trans h
  refine ⟨rfl, ?_, fun j => ?_⟩
  · rw [State.resolve_sp, State.popReturn_sp_val]
  · rw [State.resolve_slot, State.popReturn_slot]

end

/-! ## The instructions, one by one -/

/-- Settles O13: CLS completes from the cleared framebuffer. -/
theorem clsClearsFramebuffer : Obligations.ClsClearsFramebuffer := by
  refine ⟨decodeOfEncode .cls rfl, fun s => ⟨s.fbClear.resolve .next, rfl, fun x y => ?_, ?_, rfl, fun x => ?_⟩⟩
  · rw [State.resolve_cell, State.cell_fbClear]
  · rw [State.resolve_sig, State.fbClear_sig]
  · rw [State.resolve_readV, State.fbClear_readV]

/-- Settles O14, by what a pop leaves. -/
theorem retReadsBeforeDecrement : Obligations.RetReadsBeforeDecrement := by
  refine ⟨decodeOfEncode .ret rfl, fun s => ⟨_, exec_ret s, ?_⟩⟩
  obtain ⟨hpc, hsp, hslots⟩ := exec_ret_pops (exec_ret s)
  refine ⟨hpc, ?_, hslots, fun x => ?_⟩
  · rw [hsp]
    split <;> omega
  · rw [State.resolve_readV, State.popReturn_readV]

/-- Settles O15: JP completes with its jump from the state it began in. -/
theorem jpSetsPc : Obligations.JpSetsPc := fun nnn =>
  ⟨decodeOfEncode (.jp nnn) rfl, fun s =>
    ⟨s.resolve (.jump nnn.zext16), rfl, zext16_toNat nnn, fun x => s.resolve_readV _ x⟩⟩

/-- Settles O16, by when a call completes and what a push leaves. -/
theorem callPushesReturnAddress : Obligations.CallPushesReturnAddress := by
  intro nnn
  refine ⟨decodeOfEncode (.call nnn) rfl, fun s => ⟨fun h0 => ?_, fun h0 h15 => ?_, exec_call_overflow nnn⟩⟩
  · obtain ⟨t, h⟩ := exec_call_of_room nnn fun hne => absurd h0 hne
    obtain ⟨hsp, htop, hothers⟩ := exec_call_pushes h
    rw [if_pos h0] at hsp
    exact ⟨t, h, Fin.ext hsp, htop, hothers, dispositionByInstruction _ s t h, exec_call_readV h⟩
  · obtain ⟨t, h⟩ := exec_call_of_room nnn fun _ => h15
    obtain ⟨hsp, htop, hothers⟩ := exec_call_pushes h
    rw [if_neg h0] at hsp
    exact ⟨t, h, hsp, htop, hothers, dispositionByInstruction _ s t h, exec_call_readV h⟩

/-! ## Properly nested calls -/

/-- `t` has the SP of `s`, and every slot up to it. -/
structure KeepsStack (s t : State) : Prop where
  sp : t.sp = s.sp
  slots : ∀ j : Fin 16, j.val ≤ s.sp.val → t.slot j = s.slot j

section
variable {nnn : Addr12} {i : Instr} {s a b c t u : State}

theorem KeepsStack.refl (s : State) : KeepsStack s s := ⟨rfl, fun _ _ => rfl⟩

theorem KeepsStack.trans (hst : KeepsStack s t) (htu : KeepsStack t u) : KeepsStack s u where
  sp := htu.sp.trans hst.sp
  slots j hj := (htu.slots j (by rwa [hst.sp])).trans (hst.slots j hj)

theorem KeepsStack.top (h : KeepsStack s t) : t.slot t.sp = s.slot s.sp := by
  rw [h.sp]
  exact h.slots s.sp le_rfl

theorem StepsBy.keepsStack_of_isFlat (h : StepsBy i s t) (hi : Instr.isFlat i) : KeepsStack s t := by
  obtain ⟨-, op, u, hexec, rfl⟩ := h.exec_record
  obtain ⟨hstack, hsp⟩ := exec_flat_keeps_stack hi hexec
  exact ⟨hsp, fun j _ => by rw [State.record_slot, State.slot, hstack, State.slot]⟩

theorem StepsBy.pushes (h : StepsBy (.call nnn) s a) : Pushes s a := by
  obtain ⟨-, op, u, hexec, rfl⟩ := h.exec_record
  obtain ⟨hsp, htop, hothers⟩ := exec_call_pushes hexec
  exact ⟨hsp, htop, hothers⟩

theorem StepsBy.pops (h : StepsBy .ret b c) : Pops b c := by
  obtain ⟨-, op, u, hexec, rfl⟩ := h.exec_record
  obtain ⟨hpc, hsp, hslots⟩ := exec_ret_pops hexec
  exact ⟨hpc, hsp, hslots⟩

/-- The return address of a fetched instruction is nonzero: the fetch was within memory, so PC + 2 does not wrap. -/
theorem returnAddress_ne_zero (hfetch : s.pc.toNat + 1 ≤ 0xFFF) : s.pc + 2 ≠ 0 := by bv_omega

theorem StepsBy.call_top_ne_zero (h : StepsBy (.call nnn) s a) : a.slot a.sp ≠ 0 := by
  rw [h.pushes.top]
  obtain ⟨-, op, hfetch, -⟩ := h
  exact returnAddress_ne_zero (State.fetch_range hfetch)

/-- A CALL past a nonzero slot and its RET keep the stack, when the run between them does: the slot the CALL wrote is
above SP again. -/
theorem keepsStack_of_call_ret (hcall : StepsBy (.call nnn) s a) (hinner : KeepsStack a b) (hret : StepsBy .ret b c)
    (htop : s.slot s.sp ≠ 0) : KeepsStack s c := by
  have hpush := hcall.pushes
  have hpop := hret.pops
  have ha : a.sp.val = s.sp.val + 1 := hpush.sp.trans (if_neg htop)
  refine ⟨Fin.ext (by rw [hpop.sp, hinner.sp, ha, Nat.add_sub_cancel]), fun j hj => ?_⟩
  have hne : j ≠ a.sp := fun h => by omega
  calc c.slot j = b.slot j := hpop.slots j
    _ = a.slot j := hinner.slots j (by omega)
    _ = s.slot j := hpush.others j hne

/-- While the slot at SP is nonzero every call advances past it, so a properly nested run comes back to it. -/
theorem Nested.keepsStack (h : Nested s t) (htop : s.slot s.sp ≠ 0) : KeepsStack s t := by
  induction h with
  | done s => exact .refl s
  | flat hi hstep _ ih =>
    have hkeeps := hstep.keepsStack_of_isFlat hi
    exact hkeeps.trans (ih (hkeeps.top ▸ htop))
  | nest hcall _ hret _ ihInner ihRest =>
    have hkeeps := keepsStack_of_call_ret hcall (ihInner hcall.call_top_ne_zero) hret htop
    exact hkeeps.trans (ihRest (hkeeps.top ▸ htop))

end

/-- Settles O17: the run between keeps the slot the CALL wrote, which the RET reads. -/
theorem nestedCallsReturn : Obligations.NestedCallsReturn := by
  intro nnn s a b c hcall hnested hret
  have hpush := hcall.pushes
  have hpop := hret.pops
  have hinner := hnested.keepsStack hcall.call_top_ne_zero
  refine ⟨?_, fun htop => ?_, fun hsp => ?_⟩
  · rw [hpop.pc, hinner.top, hpush.top]
  · have hkeeps := keepsStack_of_call_ret hcall hinner hret htop
    exact ⟨hkeeps.sp, hkeeps.slots⟩
  · have ha : a.sp.val ≤ 1 := by
      rw [hpush.sp, hsp]
      split <;> decide
    refine Fin.ext ?_
    rw [hpop.sp, hinner.sp]
    exact Nat.sub_eq_zero_of_le ha

/-! ## Slot 0 once it is nonzero -/

/-- No step zeroes a slot: a push writes a return address, and a pop keeps every slot (R154, R160). -/
theorem Effect.slot_ne_zero {i : Instr} {s u : State} (he : Effect s i u) (hfetch : s.pc.toNat + 1 ≤ 0xFFF)
    {k : Fin 16} (hk : s.slot k ≠ 0) : u.slot k ≠ 0 := by
  cases he
  case push nnn j hj =>
    rw [State.slot_push]
    split
    · exact returnAddress_ne_zero hfetch
    · exact hk
  case pop => rwa [State.popReturn_slot]
  all_goals exact hk

theorem step_keeps_slot_ne_zero {s t : State} (h : step s = .next t) {k : Fin 16} (hk : s.slot k ≠ 0) :
    t.slot k ≠ 0 := by
  obtain ⟨-, op, i, u, hfetch, -, hexec, rfl⟩ := step_next.1 h
  obtain ⟨w, d, he, -, rfl⟩ := exec_completes hexec
  rw [State.record_slot, State.resolve_slot]
  exact he.slot_ne_zero (State.fetch_range hfetch) hk

/-- With slot 0 nonzero the slot at SP is nonzero too, at SP 0 and above it. -/
theorem StackInv.top_ne_zero {s : State} (hinv : StackInv s) (h0 : s.slot 0 ≠ 0) : s.slot s.sp ≠ 0 := by
  by_cases hsp : s.sp = 0
  · rwa [hsp]
  · exact hinv s.sp le_rfl (Fin.pos_iff_ne_zero.2 hsp)

/-- Settles O18: no step zeroes a slot, and a CALL advances past the slot at SP, which is nonzero. -/
theorem nonzeroSlotZeroMakesCallsAdvance : Obligations.NonzeroSlotZeroMakesCallsAdvance :=
  ⟨fun _ _ h h0 => step_keeps_slot_ne_zero h h0,
    fun _ _ _ hinv h0 h => (exec_call_pushes h).sp.trans (if_neg (hinv.top_ne_zero h0))⟩

end Sys2Proof.Machine
end

section
/-! Conditional skips and immediate loads (spec/42_skip_load.md): how an instruction that ends with a skip, and one that
ends with one register written, leaves the registers and PC, then the instructions. -/

namespace Sys2Proof.Machine

section
variable {i : Instr} {s : State}

/-- A conditional skip always completes, in the state it began in but for PC. -/
theorem exec_completes_of_skipIf {c : Bool} {p : Prop} [Decidable p] (hexec : exec i s = complete (skipIf c) s)
    (hc : c = true ↔ p) :
    ∃ t, exec i s = .next t ∧ (∀ z, t.readV z = s.readV z) ∧ t.pc = if p then s.pc + 4 else s.pc + 2 := by
  refine ⟨s.resolve (skipIf c), hexec, fun z => s.resolve_readV _ z, ?_⟩
  simp only [State.resolve_skipIf_pc, hc]

/-- An instruction that ends with one register written always completes, with the other registers as they were. -/
theorem exec_completes_of_writeV {x : Reg} {b : Byte} (hexec : exec i s = complete .next (s.writeV x b)) :
    ∃ t, exec i s = .next t ∧ t.readV x = b ∧ (∀ z, z ≠ x → t.readV z = s.readV z) ∧ t.pc = s.pc + 2 := by
  refine ⟨(s.writeV x b).resolve .next, hexec, ?_, fun z hz => ?_, rfl⟩
  · rw [State.resolve_readV, State.readV_writeV_same]
  · rw [State.resolve_readV, s.readV_writeV_ne hz]

end

/-- Families 5 and 9 decode whatever their last nibble is (R106). -/
theorem decode_formatXY_skips (x y : Reg) {k : Nat} (hk : k < 16) :
    decode (formatXY 0x5 x y k) = .ok (.seReg x y) ∧ decode (formatXY 0x9 x y k) = .ok (.sneReg x y) := by
  constructor
  · obtain ⟨hF, hX, hY, -⟩ := fields_of_formatXY 0x5 (by decide) x y k hk
    simp [decode, hF, hX, hY]
  · obtain ⟨hF, hX, hY, -⟩ := fields_of_formatXY 0x9 (by decide) x y k hk
    simp [decode, hF, hX, hY]

/-- Settles O19: each is a conditional skip on its comparison. -/
theorem skipOnImmediate : Obligations.SkipOnImmediate := fun x nn =>
  ⟨decodeOfEncode (.seImm x nn) rfl, decodeOfEncode (.sneImm x nn) rfl, fun _ =>
    ⟨exec_completes_of_skipIf rfl beq_iff_eq, exec_completes_of_skipIf rfl bne_iff_ne⟩⟩

/-- Settles O20: each is a conditional skip on its comparison, and the last nibble is not examined (D9). -/
theorem skipOnRegisters : Obligations.SkipOnRegisters := fun x y =>
  ⟨fun _ hk => decode_formatXY_skips x y hk, fun _ =>
    ⟨exec_completes_of_skipIf rfl beq_iff_eq, exec_completes_of_skipIf rfl bne_iff_ne⟩⟩

/-- Settles O21: it ends with V[x] written. -/
theorem ldImmLoads : Obligations.LdImmLoads := fun x nn =>
  ⟨decodeOfEncode (.ldImm x nn) rfl, fun _ => exec_completes_of_writeV rfl⟩

/-- Settles O22: it ends with V[x] written, with a byte sum, which wraps; VF is among the other registers (D4). -/
theorem addImmWrapsWithoutFlag : Obligations.AddImmWrapsWithoutFlag := by
  refine fun x nn => ⟨decodeOfEncode (.addImm x nn) rfl, fun s => ?_⟩
  obtain ⟨t, hexec, hx, hothers, hpc⟩ :=
    exec_completes_of_writeV (i := .addImm x nn) (s := s) (x := x) (b := s.readV x + nn) rfl
  exact ⟨t, hexec, by rw [hx, BitVec.toNat_add], hothers, hpc⟩

end Sys2Proof.Machine
end

section
/-! Register-to-register operations (spec/43_alu.md): the two writes of a flag-writing operation, how an instruction
that ends with them leaves the registers and PC, the results and flags as numbers, then the instructions. -/

namespace Sys2Proof.Machine

theorem State.writeV_comm (s : State) {x y : Reg} (h : x ≠ y) (b c : Byte) :
    (s.writeV x b).writeV y c = (s.writeV y c).writeV x b := by
  simp only [State.writeV, Vector.set_comm b c (Fin.val_ne_of_ne h)]

/-- Settles O27: off VF the two writes are to different registers and commute; at VF the last one is read. -/
theorem writeOrderShowsOnlyAtVf : Obligations.WriteOrderShowsOnlyAtVf := fun _ r c s =>
  ⟨fun hx => s.writeV_comm hx r (flagByte c), State.readV_writeFlag_same _ c, State.readV_writeV_same _ 15 r⟩

section
variable {i : Instr} {s : State} {x : Reg} {b : Byte}

/-- `exec_completes_of_writeV` with the byte written known as the number `n`. -/
theorem exec_completes_of_writeV_toNat {n : Nat} (hexec : exec i s = complete .next (s.writeV x b)) (hb : b.toNat = n) :
    ∃ t, exec i s = .next t ∧ (t.readV x).toNat = n ∧ (∀ z, z ≠ x → t.readV z = s.readV z) ∧ t.pc = s.pc + 2 := by
  obtain ⟨t, ht, hx, hothers, hpc⟩ := exec_completes_of_writeV hexec
  exact ⟨t, ht, by rw [hx, hb], hothers, hpc⟩

/-- A flag-writing operation always completes: V[x] holds the result unless the flag overwrites it, VF holds the flag
whatever x is (R194, D6), and the other registers are as they were. -/
theorem exec_completes_of_finishAlu {c : Bool} {n f : Nat} (hexec : exec i s = finishAlu x b c s) (hb : b.toNat = n)
    (hc : (flagByte c).toNat = f) :
    ∃ t, exec i s = .next t ∧ (x ≠ 15 → (t.readV x).toNat = n) ∧ (t.readV 15).toNat = f ∧
      (∀ z, z ≠ x → z ≠ 15 → t.readV z = s.readV z) ∧ t.pc = s.pc + 2 := by
  refine ⟨((s.writeV x b).writeFlag c).resolve .next, hexec.trans (finishAlu_eq x b c s), fun hx => ?_, ?_,
    fun z hzx hz => ?_, rfl⟩
  · rw [State.resolve_readV, State.readV_writeFlag_ne _ hx, State.readV_writeV_same, hb]
  · exact (congrArg BitVec.toNat (State.readV_writeFlag_same _ c)).trans hc
  · rw [State.resolve_readV, State.readV_writeFlag_ne _ hz, s.readV_writeV_ne hzx]

end

/-! ## Results and flags as numbers (R200, R194) -/

theorem flagByte_decide_toNat (p : Prop) [Decidable p] : (flagByte (decide p)).toNat = bitValue p := by
  by_cases hp : p <;> simp [hp, bitValue]

theorem flagByte_lowBit_toNat (b : Byte) : (flagByte (lowBit b)).toNat = b.toNat % 2 := by
  rw [lowBit, flagByte_decide_toNat, bitValue]
  split <;> omega

theorem byte_sub_toNat (a b : Byte) : (a - b).toNat = (a.toNat + 256 - b.toNat) % 256 := by bv_omega

theorem byte_shiftRight_one_toNat (b : Byte) : (b >>> 1).toNat = b.toNat / 2 := by
  rw [BitVec.toNat_ushiftRight, Nat.shiftRight_eq_div_pow, Nat.pow_one]

theorem byte_shiftLeft_one_toNat (b : Byte) : (b <<< 1).toNat = b.toNat * 2 % 256 := by
  rw [BitVec.toNat_shiftLeft, Nat.shiftLeft_eq, Nat.pow_one]

/-! ## The instructions -/

/-- Settles O23: each ends with V[x] written, VF being among the other registers (D4). -/
theorem moveAndLogicLeaveVf : Obligations.MoveAndLogicLeaveVf := fun x y =>
  ⟨decodeOfEncode (.ldReg x y) rfl, decodeOfEncode (.orReg x y) rfl, decodeOfEncode (.andReg x y) rfl,
    decodeOfEncode (.xorReg x y) rfl, fun s =>
    ⟨exec_completes_of_writeV rfl,
      exec_completes_of_writeV_toNat rfl (BitVec.toNat_or (s.readV x) (s.readV y)),
      exec_completes_of_writeV_toNat rfl (BitVec.toNat_and (s.readV x) (s.readV y)),
      exec_completes_of_writeV_toNat rfl (BitVec.toNat_xor (s.readV x) (s.readV y))⟩⟩

/-- Settles O24: a byte sum, which wraps, and its carry. -/
theorem addRegSetsCarry : Obligations.AddRegSetsCarry := fun x y =>
  ⟨decodeOfEncode (.addReg x y) rfl, fun s =>
    exec_completes_of_finishAlu rfl (BitVec.toNat_add (s.readV x) (s.readV y)) (flagByte_decide_toNat _)⟩

/-- Settles O25: a byte difference, which wraps, and the strict comparison, both of the old registers (D5). -/
theorem subtractionsCompareStrictly : Obligations.SubtractionsCompareStrictly := fun x y =>
  ⟨decodeOfEncode (.sub x y) rfl, decodeOfEncode (.subn x y) rfl, fun s =>
    ⟨exec_completes_of_finishAlu rfl (byte_sub_toNat (s.readV x) (s.readV y)) (flagByte_decide_toNat _),
      exec_completes_of_finishAlu rfl (byte_sub_toNat (s.readV y) (s.readV x)) (flagByte_decide_toNat _)⟩⟩

/-- Settles O26: a byte shifted by one, and the bit shifted out; y is not read. -/
theorem shiftsMoveVxByOne : Obligations.ShiftsMoveVxByOne := fun x y =>
  ⟨decodeOfEncode (.shr x y) rfl, decodeOfEncode (.shl x y) rfl, fun s =>
    ⟨exec_completes_of_finishAlu rfl (byte_shiftRight_one_toNat (s.readV x)) (flagByte_lowBit_toNat _),
      exec_completes_of_finishAlu rfl (byte_shiftLeft_one_toNat (s.readV x)) (flagByte_decide_toNat _)⟩⟩

end Sys2Proof.Machine
end

section
/-! Index, jump with offset, random (spec/44_index_jump_random.md). -/

namespace Sys2Proof.Machine

/-- Settles O28: LD_I completes from the state with I written. -/
theorem ldISetsIndex : Obligations.LdISetsIndex := by
  refine fun nnn => ⟨decodeOfEncode (.ldI nnn) rfl, fun s =>
    ⟨(s.writeI nnn.zext16).resolve .next, rfl, ?_, rfl, fun x => ?_⟩⟩
  · rw [State.resolve_i, State.writeI_i, zext16_toNat]
  · rw [State.resolve_readV, State.writeI_readV]

/-- Settles O29: JP_V0 completes with its jump from the state it began in, and the target does not wrap (D12). -/
theorem jpV0AddsV0 : Obligations.JpV0AddsV0 := fun nnn =>
  ⟨decodeOfEncode (.jpV0 nnn) rfl, fun s =>
    ⟨s.resolve (.jump (offsetTarget nnn (s.readV 0))), rfl, offsetTarget_toNat nnn (s.readV 0),
      fun x => s.resolve_readV _ x⟩⟩

/-- Settles O30: RND completes from the state after one draw with V[x] written. The draw is the free value of D24, so
the last clause speaks of the mask alone. -/
theorem rndMasksOneDraw : Obligations.RndMasksOneDraw := by
  refine fun x nn => ⟨decodeOfEncode (.rnd x nn) rfl, fun s => ?_⟩
  have hx : ((s.drawRand.2.writeV x (s.drawRand.1 &&& nn)).resolve .next).readV x =
      Config.randomByte s.draws &&& nn := by
    rw [State.resolve_readV, State.readV_writeV_same, State.drawRand]
  refine ⟨_, rfl, hx, ?_, fun z hz => ?_, rfl, fun k hk => ?_⟩
  · rw [State.resolve_draws, State.writeV_draws, State.drawRand_draws]
  · rw [State.resolve_readV, State.readV_writeV_ne _ hz, State.drawRand_readV]
  · rw [hx, BitVec.getLsbD_and, hk, Bool.and_false]

end Sys2Proof.Machine
end

section
/-! Sprite draw (spec/45_draw.md): what one pixel and one DRW leave of the grid, VF and SIG, and the same draw again. -/

namespace Sys2Proof.Machine

/-! ## One pixel -/

/-- Settles O32: the old value comes back, and only the cell named takes another. -/
theorem drawPixelFlipsAndReports : Obligations.DrawPixelFlipsAndReports := by
  refine fun s x y => ⟨s.fbDrawPixel_old x y, ?_, s.fbDrawPixel_sig x y, fun cx cy hne => ?_⟩
  · simp [State.cell_fbDrawPixel]
  · have hother : ¬ (x = cx ∧ y = cy) := fun ⟨hx, hy⟩ => hne (by rw [hx, hy])
    rw [State.cell_fbDrawPixel, decide_eq_false hother, Bool.xor_false]

/-! ## One draw -/

/-- From `s` to `t` the `n`-byte sprite at I is drawn: the touched cells flip, VF reports whether one of them was set,
SIG whether there is one (R235). -/
structure Draws (x y : Reg) (n : Nat) (s t : State) : Prop where
  flips : ∀ cx cy, t.cell cx cy ≠ s.cell cx cy ↔ SpriteTouches s x y n cx cy
  collision : (∃ cx cy, SpriteTouches s x y n cx cy ∧ s.cell cx cy = true) → t.readV 15 = 1
  noCollision : (¬ ∃ cx cy, SpriteTouches s x y n cx cy ∧ s.cell cx cy = true) → t.readV 15 = 0
  drew : (∃ cx cy, SpriteTouches s x y n cx cy) → t.sig = .drew
  untouched : (¬ ∃ cx cy, SpriteTouches s x y n cx cy) → t.sig = s.sig

section
variable {x y : Reg} {n : Nat} {s t u w : State}

theorem exec_drw_of_range (x y : Reg) (hrange : n = 0 ∨ s.i.toNat + n ≤ 0x1000) :
    ∃ t, exec (.drw x y n) s = .next t :=
  ⟨_, attempt_of_ok (State.loadBytes_ok hrange) _⟩

/-- The pixels plotted are the touched cells, each once: a sprite of at most 32 rows touches no cell twice (R237). -/
theorem exec_drw_draws (hn : n ≤ 15) (h : exec (.drw x y n) s = .next t) : Draws x y n s t := by
  obtain ⟨-, rfl⟩ := exec_drw_next h
  have hnodup := nodup_spritePixels (s.readV x) (s.readV y) 0 (s.mem.readBytes s.i.toNat n)
    (by rw [Memory.readBytes_length]; omega)
  have hmem (p : Fin 64 × Fin 32) := mem_spritePixels_iff_spriteTouches (s := s) (x := x) (y := y) (n := n) (p := p)
  generalize spritePixels (s.readV x) (s.readV y) 0 (s.mem.readBytes s.i.toNat n) = ps at hnodup hmem
  have hflag := foldl_plot_readV ps hnodup (s.writeFlag false) 15
  have hsig := foldl_plot_sig ps (s.writeFlag false)
  refine ⟨fun cx cy => ?_, fun ⟨cx, cy, ht, hc⟩ => ?_, fun hnone => ?_, fun ⟨cx, cy, ht⟩ => ?_, fun hnone => ?_⟩
  · rw [State.resolve_cell, foldl_plot_cell ps hnodup, State.writeFlag_cell, ← hmem (cx, cy)]
    by_cases hp : (cx, cy) ∈ ps <;> simp [hp]
  · rw [State.resolve_readV, hflag, if_pos ⟨rfl, (cx, cy), (hmem _).2 ht, hc⟩]
  · rw [State.resolve_readV, hflag, if_neg fun ⟨_, p, hp, hc⟩ => hnone ⟨p.1, p.2, (hmem p).1 hp, hc⟩]
    exact State.readV_writeFlag_same s false
  · rw [State.resolve_sig, hsig, if_neg (List.ne_nil_of_mem ((hmem (cx, cy)).2 ht))]
  · have hps : ps = [] := List.eq_nil_iff_forall_not_mem.2 fun p hp => hnone ⟨p.1, p.2, (hmem p).1 hp⟩
    rw [State.resolve_sig, hsig, if_pos hps, State.writeFlag_sig]

/-! ## The same draw again -/

/-- Which cells a sprite touches is read from I, the two coordinates and memory alone. -/
theorem spriteTouches_congr (hmem : u.mem = s.mem) (hi : u.i = s.i) (hx : u.readV x = s.readV x)
    (hy : u.readV y = s.readV y) (cx : Fin 64) (cy : Fin 32) :
    SpriteTouches u x y n cx cy ↔ SpriteTouches s x y n cx cy := by
  rw [SpriteTouches, SpriteTouches, hmem, hi, hx, hy]

theorem Draws.cell_of_touches (h : Draws x y n s t) {cx : Fin 64} {cy : Fin 32} (ht : SpriteTouches s x y n cx cy) :
    t.cell cx cy = !s.cell cx cy :=
  Bool.eq_not_of_ne ((h.flips cx cy).2 ht)

theorem Draws.cell_of_not_touches (h : Draws x y n s t) {cx : Fin 64} {cy : Fin 32}
    (ht : ¬ SpriteTouches s x y n cx cy) : t.cell cx cy = s.cell cx cy :=
  not_not.1 (mt (h.flips cx cy).1 ht)

theorem State.fb_eq_of_cell_eq (h : ∀ cx cy, s.cell cx cy = t.cell cx cy) : s.fb = t.fb :=
  Vector.ext fun r hr => Vector.ext fun c hc => h ⟨c, hc⟩ ⟨r, hr⟩

theorem State.cell_eq_of_fb_eq (h : s.fb = t.fb) (cx : Fin 64) (cy : Fin 32) : s.cell cx cy = t.cell cx cy := by
  rw [State.cell, State.cell, h]

/-- Two draws of the same cells, the second on the grid the first left, flip each touched cell twice. -/
theorem Draws.fb_of_again (hfirst : Draws x y n s t) (hagain : Draws x y n u w) (hfb : u.fb = t.fb)
    (htouch : ∀ cx cy, SpriteTouches u x y n cx cy ↔ SpriteTouches s x y n cx cy) : w.fb = s.fb := by
  refine State.fb_eq_of_cell_eq fun cx cy => ?_
  have hgrid := State.cell_eq_of_fb_eq hfb cx cy
  by_cases ht : SpriteTouches s x y n cx cy
  · rw [hagain.cell_of_touches ((htouch cx cy).2 ht), hgrid, hfirst.cell_of_touches ht, Bool.not_not]
  · rw [hagain.cell_of_not_touches (mt (htouch cx cy).1 ht), hgrid, hfirst.cell_of_not_touches ht]

/-- The second draw meets a set cell where the first met a clear one. -/
theorem Draws.collides_again_iff (hfirst : Draws x y n s t) (hfb : u.fb = t.fb)
    (htouch : ∀ cx cy, SpriteTouches u x y n cx cy ↔ SpriteTouches s x y n cx cy) :
    (∃ cx cy, SpriteTouches u x y n cx cy ∧ u.cell cx cy = true) ↔
      ∃ cx cy, SpriteTouches s x y n cx cy ∧ s.cell cx cy = false := by
  refine exists_congr fun cx => exists_congr fun cy => ?_
  rw [htouch]
  refine and_congr_right fun ht => ?_
  rw [State.cell_eq_of_fb_eq hfb, hfirst.cell_of_touches ht, Bool.not_eq_true']

end

/-! ## The instruction -/

/-- Settles O31, by what a draw leaves; the other registers are outside its frame. -/
theorem drwFlipsTouchedCells : Obligations.DrwFlipsTouchedCells := by
  refine fun x y n hn => ⟨decodeOfEncode (.drw x y n) (decide_eq_true hn), fun s hrange => ?_⟩
  obtain ⟨t, h⟩ := exec_drw_of_range x y hrange
  obtain ⟨hflips, hcollision, hnoCollision, hdrew, huntouched⟩ := exec_drw_draws hn h
  refine ⟨t, h, hflips, hcollision, hnoCollision, hdrew, huntouched, fun z hz => ?_, dispositionByInstruction _ s t h⟩
  exact (frameFramebuffer x y n s t hn).2 h (.v z) (by simp [hz])

/-- Settles O33: the second draw touches the same cells, so it flips them back, and it meets a set cell where the first
met a clear one. -/
theorem drawingTwiceRestoresTheGrid : Obligations.DrawingTwiceRestoresTheGrid := by
  intro x y n s t u w hn hst hfb hmem hi hx hy huw
  have hfirst := exec_drw_draws hn hst
  have hagain := exec_drw_draws hn huw
  have htouch := spriteTouches_congr (n := n) hmem hi hx hy
  have hcollides := hfirst.collides_again_iff hfb htouch
  exact ⟨hfirst.fb_of_again hagain hfb htouch, fun h => hagain.collision (hcollides.2 h),
    fun h => hagain.noCollision (mt hcollides.1 h)⟩

end Sys2Proof.Machine
end

section
/-! Key-conditional skips (spec/46_keypad.md). -/

namespace Sys2Proof.Machine

/-- A value in 0..15 indexes the key of that number (R252). -/
theorem keyIndex_of_toNat {b : Byte} {k : Fin 16} (h : b.toNat = k.val) : keyIndex b = .ok k := by
  rw [keyIndex_ok (by omega)]
  exact congrArg Except.ok (Fin.ext h)

/-- Settles O34: with a key in range each is a conditional skip on that key's level, and the index rule refuses a value
above 15 (D18). -/
theorem keySkipsTestTheLevel : Obligations.KeySkipsTestTheLevel := by
  refine fun x => ⟨decodeOfEncode (.skp x) rfl, decodeOfEncode (.sknp x) rfl, fun s => ⟨fun k hk => ?_, fun hout => ?_⟩⟩
  · have hkey : keyIndex (s.readV x) = .ok k := keyIndex_of_toNat hk
    exact ⟨exec_completes_of_skipIf (attempt_of_ok hkey _) Iff.rfl,
      exec_completes_of_skipIf (attempt_of_ok hkey _) (Bool.not_eq_true' _).to_iff⟩
  · have hkey : keyIndex (s.readV x) = .error (.keyRange (s.readV x)) := keyIndex_error hout
    exact ⟨attempt_of_error hkey _, attempt_of_error hkey _⟩

end Sys2Proof.Machine
end

section
/-! Timers, key wait, index arithmetic, BCD and register block transfer (spec/47_misc.md). -/

namespace Sys2Proof.Machine

/-- A number that fits in a word is the number the word holds. -/
theorem toNat_ofNat_of_lt {w n : Nat} (hn : n < 2 ^ w) : (BitVec.ofNat w n).toNat = n := by
  rw [BitVec.toNat_ofNat, Nat.mod_eq_of_lt hn]

/-! ## Timers -/

/-- Settles O35: each completes from the state with one register or timer written. -/
theorem timerMoves : Obligations.TimerMoves := by
  refine fun x => ⟨decodeOfEncode (.ldVxDt x) rfl, decodeOfEncode (.ldDtVx x) rfl, decodeOfEncode (.ldStVx x) rfl,
    fun s => ⟨?_, ?_, ?_⟩⟩
  · refine ⟨(s.writeV x s.dt).resolve .next, rfl, ?_, fun z hz => ?_, rfl, rfl⟩
    · rw [State.resolve_readV, State.readV_writeV_same]
    · rw [State.resolve_readV, s.readV_writeV_ne hz]
  · exact ⟨(s.writeDt (s.readV x)).resolve .next, rfl, rfl, fun _ => rfl, rfl⟩
  · exact ⟨(s.writeSt (s.readV x)).resolve .next, rfl, rfl, decide_eq_true_iff, fun _ => rfl, rfl⟩

/-! ## Key wait -/

section
variable {x : Reg} {s : State}

theorem exec_ldVxK_of_none (hnone : s.highestKey = none) : exec (.ldVxK x) s = complete (.jump s.pc) s := by
  simp only [exec, execLdVxK, hnone]

theorem exec_ldVxK_of_some {k : Nat} (hsome : s.highestKey = some k) :
    exec (.ldVxK x) s = complete .next (s.writeV x (BitVec.ofNat 8 k)) := by
  simp only [exec, execLdVxK, hsome]

end

/-- Settles O36: the scan of the keys finds none, and PC is held, or it finds the highest, which V[x] takes. -/
theorem keyWaitHoldsOrTakesHighest : Obligations.KeyWaitHoldsOrTakesHighest := by
  refine fun x => ⟨decodeOfEncode (.ldVxK x) rfl, fun s => ⟨fun hnone => ?_, fun k hk habove => ?_⟩⟩
  · exact ⟨s.resolve (.jump s.pc), exec_ldVxK_of_none (State.highestKey_none.2 hnone), rfl,
      fun z => s.resolve_readV _ z⟩
  · exact exec_completes_of_writeV_toNat (exec_ldVxK_of_some ((State.highestKey_some k).2 ⟨hk, habove⟩))
      (toNat_ofNat_of_lt (by omega))

/-! ## Index arithmetic -/

/-- Settles O37, by the two answers of the index sum; within 16 bits I holds it and VF the comparison (D7, D15). -/
theorem addIndexSetsFlagAboveMemory : Obligations.AddIndexSetsFlagAboveMemory := by
  refine fun x => ⟨decodeOfEncode (.addIVx x) rfl, fun s => ⟨fun hle => ?_, fun hgt => ?_⟩⟩
  · refine ⟨_, attempt_of_ok (indexSum_ok hle) _, ?_, ?_, fun z hz => ?_, rfl⟩
    · rw [State.resolve_i, State.writeFlag_i, State.writeI_i, toNat_ofNat_of_lt (by omega)]
    · rw [State.resolve_readV]
      exact (congrArg BitVec.toNat (State.readV_writeFlag_same _ _)).trans (flagByte_decide_toNat _)
    · rw [State.resolve_readV, State.readV_writeFlag_ne _ hz, State.writeI_readV]
  · exact attempt_of_error (indexSum_error hgt) _

/-- Five times a byte fits in a word, so a glyph address does not wrap (R79, D39). -/
theorem glyphAddress_toNat (b : Byte) : (glyphAddress b).toNat = 5 * b.toNat := by
  rw [glyphAddress, toNat_ofNat_of_lt (by omega), Nat.mul_comm]

/-- Settles O38: LD_F_Vx completes from the state with I written. -/
theorem ldFPointsAtGlyph : Obligations.LdFPointsAtGlyph := fun x =>
  ⟨decodeOfEncode (.ldFVx x) rfl, fun s =>
    ⟨(s.writeI (glyphAddress (s.readV x))).resolve .next, rfl, glyphAddress_toNat _, fun _ => rfl, rfl⟩⟩

/-! ## BCD -/

section
variable {x : Reg} {s : State}

/-- What a block of writes leaves at the `k`-th address of the block. -/
theorem Memory.read_writeBytes_add {m : Memory} (hwf : m.wf = true) {base : Nat} {bs : List Byte}
    (hb : base + bs.length ≤ 0x1000) (k : Nat) :
    (m.writeBytes base bs).read (base + k) = (bs[k]?).getD (m.read (base + k)) := by
  rw [Memory.read_writeBytes hwf hb, if_pos (Nat.le_add_right base k), Nat.add_sub_cancel_left]

/-- A BCD store in range completes (R267). -/
theorem exec_ldBVx_of_le (hrange : s.i.toNat + 3 ≤ 0x1000) :
    exec (.ldBVx x) s =
      .next (State.resolve .next { s with mem := s.mem.writeBytes s.i.toNat (bcdDigits (s.readV x)) }) :=
  attempt_of_ok (State.storeBytes_ok (.inr hrange)) _

/-- The memory a BCD store leaves holds hundreds, tens and ones from I on (R267, D16). -/
theorem exec_ldBVx_digits {t : State} (hwf : s.mem.wf = true) (h : exec (.ldBVx x) s = .next t) :
    (t.mem.read s.i.toNat).toNat = (s.readV x).toNat / 100 ∧
    (t.mem.read (s.i.toNat + 1)).toNat = (s.readV x).toNat / 10 % 10 ∧
    (t.mem.read (s.i.toNat + 2)).toNat = (s.readV x).toNat % 10 := by
  obtain ⟨hrange, rfl⟩ := exec_ldBVx_next h
  have hbyte := (s.readV x).isLt
  have hread (k : Nat) := congrArg BitVec.toNat (Memory.read_writeBytes_add (bs := bcdDigits (s.readV x)) hwf hrange k)
  exact ⟨(hread 0).trans (toNat_ofNat_of_lt (by omega)), (hread 1).trans (toNat_ofNat_of_lt (by omega)),
    (hread 2).trans (toNat_ofNat_of_lt (by omega))⟩

end

/-- Settles O39: the digits make the byte; a BCD store changes only memory and PC. -/
theorem bcdStoresThreeDigits : Obligations.BcdStoresThreeDigits := by
  refine fun x => ⟨decodeOfEncode (.ldBVx x) rfl, fun s hwf hle => ?_⟩
  have hexec := exec_ldBVx_of_le (x := x) (s := s) (by omega)
  obtain ⟨hundreds, tens, ones⟩ := exec_ldBVx_digits hwf hexec
  have hbyte := (s.readV x).isLt
  refine ⟨_, hexec, ?_⟩
  rw [hundreds, tens, ones]
  exact ⟨by omega, by omega, by omega, by omega, rfl, fun _ => rfl, rfl⟩

/-! ## Register blocks -/

section
variable {x : Reg} {s : State}

/-- Past a block within memory I does not wrap. -/
theorem indexPast_toNat {i : Word} (hle : i.toNat + x.val ≤ 0xFFF) : (indexPast i x).toNat = i.toNat + x.val + 1 :=
  toNat_ofNat_of_lt (by omega)

/-- A block store in range completes (R268). -/
theorem exec_ldMemVx_of_le (hrange : s.i.toNat + x.val + 1 ≤ 0x1000) :
    exec (.ldMemVx x) s =
      .next ((State.writeI (indexPast s.i x)
        { s with mem := s.mem.writeBytes s.i.toNat (s.readVs x) }).resolve .next) :=
  attempt_of_ok (State.storeBytes_ok (.inr (by rw [State.readVs_length]; omega))) _

/-- Registers past the block loaded are as they were. -/
theorem State.readV_writeVs_of_length_le {bs : List Byte} {k : Reg} (hk : bs.length ≤ k.val) :
    (s.writeVs 0 bs).readV k = s.readV k := by
  rw [State.writeVs_readV, if_pos (Nat.zero_le _), Nat.sub_zero, List.getElem?_eq_none hk, Option.getD_none]

end

/-- Settles O40, by what a block store leaves in memory; it changes no register but I. -/
theorem blockStoreAdvancesIndex : Obligations.BlockStoreAdvancesIndex := by
  refine fun x => ⟨decodeOfEncode (.ldMemVx x) rfl, fun s hwf hle => ?_⟩
  have hexec := exec_ldMemVx_of_le (x := x) (s := s) (by omega)
  exact ⟨_, hexec, fun k hk => exec_ldMemVx_read hwf hexec hk, indexPast_toNat hle, fun _ => rfl, rfl⟩

/-- Settles O41, by what a block load leaves in the registers of the block and in those past it. -/
theorem blockLoadAdvancesIndex : Obligations.BlockLoadAdvancesIndex := by
  refine fun x => ⟨decodeOfEncode (.ldVxMem x) rfl, fun s hle => ?_⟩
  refine ⟨_, exec_ldVxMem_of_le (by omega), fun k hk => ?_, fun k hk => ?_, indexPast_toNat hle, ?_⟩
  · rw [State.resolve_readV, State.writeI_readV, State.readV_writeVs_readBytes (by omega)]
  · rw [State.resolve_readV, State.writeI_readV,
      State.readV_writeVs_of_length_le (by rw [Memory.readBytes_length]; omega)]
  · rw [State.resolve_next_pc, State.writeI_pc, State.writeVs_pc]

end Sys2Proof.Machine
end

section
/-! Construction and ROM load (spec/70_reset_and_hazards.md). -/

namespace Sys2Proof.Machine

/-! ## What construction and ROM load share -/

/-- Every observable part of the state but memory is at its reset value (R56, R341). -/
structure AtReset (s : State) : Prop where
  v : ∀ x, s.readV x = 0
  i : s.i = 0
  pc : s.pc = 0x200
  slots : ∀ j, s.slot j = 0
  sp : s.sp = 0
  dt : s.dt = 0
  st : s.st = 0
  keys : ∀ k, s.key k = false
  cells : ∀ x y, s.cell x y = false
  sig : s.sig = .idle
  halted : s.halted = none
  last : s.last = none

/-- Construction has it with any memory: ROM load differs from construction in memory alone (R342). -/
theorem atReset_construct_mem (font : Vector Byte 80) (rand : Nat) (m : Memory) :
    AtReset { State.construct font rand with mem := m } where
  v x := Vector.getElem_replicate x.isLt
  i := rfl
  pc := rfl
  slots j := Vector.getElem_replicate j.isLt
  sp := rfl
  dt := rfl
  st := rfl
  keys k := Vector.getElem_replicate k.isLt
  cells x y := (State.construct font rand).cell_fbClear x y
  sig := rfl
  halted := rfl
  last := rfl

theorem atReset_construct (font : Vector Byte 80) (rand : Nat) : AtReset (State.construct font rand) :=
  atReset_construct_mem font rand _

theorem State.atReset_load (s : State) (rom : List Byte) : AtReset (s.load rom) := atReset_construct_mem _ _ _

/-- At reset the invariant asks for the canonical form of memory alone. -/
theorem AtReset.inv {s : State} (h : AtReset s) (hwf : s.mem.wf = true) : Inv s where
  memory := hwf
  pc := by rw [h.pc]; decide
  slots j := by rw [h.slots j]; decide
  stack j _ hpos := by rw [h.sp] at hpos; exact absurd hpos (Nat.lt_irrefl 0)

/-! ## Construction -/

theorem construct_inv (font : Vector Byte 80) (rand : Nat) : Inv (State.construct font rand) :=
  (atReset_construct font rand).inv (Memory.wf_empty font)

/-- Settles O53: State.reset is a construction. -/
theorem constructionHasInv : Obligations.ConstructionHasInv :=
  ⟨construct_inv, construct_inv Config.defaultFont 0⟩

theorem construct_read (font : Vector Byte 80) (rand a : Nat) :
    (State.construct font rand).mem.read a = Memory.unlisted font a := rfl

theorem Memory.unlisted_below (font : Vector Byte 80) {a : Nat} (ha : a < 80) :
    font[a]? = some (Memory.unlisted font a) := by
  rw [Memory.unlisted, Vector.getElem?_eq_getElem ha, Option.getD_some]

/-- The caller's `construct` has a result on any core, halted or not (R330). -/
theorem call_construct (font : Vector Byte 80) (rand : Nat) (s : State) :
    call (.construct font rand) s = .next (State.construct font rand, .nothing) := by
  cases hhalted : s.halted with
  | none => exact call_of_running hhalted _
  | some cause => simp only [call, hhalted]

/-- Settles O57: the reset values, and memory that lists nothing. -/
theorem constructionState : Obligations.ConstructionState := by
  refine ⟨?_, call_construct⟩
  rintro font rand s rfl
  obtain ⟨hv, hi, hpc, hslots, hsp, hdt, hst, hkeys, hcells, hsig, hhalted, hlast⟩ := atReset_construct font rand
  refine ⟨hv, hi, hpc, hslots, hsp, hdt, hst, hkeys, hcells, hsig, hhalted, hlast, fun a ha => ?_, fun a ha => ?_⟩
  · rw [construct_read, Memory.unlisted_below font ha]
  · rw [construct_read, Memory.unlisted_above font ha]

/-! ## ROM load -/

section
variable {s : State} {rom : List Byte}

theorem call_loadRom (hrunning : s.halted = none) (hlen : rom.length ≤ 3584) :
    call (.loadRom rom) s = .next (s.load rom, .nothing) :=
  (call_of_running hrunning _).trans (if_pos hlen)

/-- A ROM that does not fit is refused (R343, D28). -/
theorem call_loadRom_refused (hrunning : s.halted = none) (hlen : rom.length > 3584) :
    call (.loadRom rom) s = .refused (.romTooLong rom.length) :=
  (call_of_running hrunning _).trans (if_neg (Nat.not_le.2 hlen))

end

/-- Settles O58: the reset values, and what memory holds after a load. -/
theorem romLoad : Obligations.RomLoad := by
  intro s rom hrunning
  refine ⟨call_loadRom_refused hrunning, fun hlen => ⟨s.load rom, call_loadRom hrunning hlen, ?_⟩⟩
  have hread (a : Nat) : (s.load rom).mem.read a = if a < 0x200 then s.mem.read a else (rom[a - 0x200]?).getD 0 :=
    s.mem.read_load rom a
  obtain ⟨hv, hi, hpc, hslots, hsp, hdt, hst, hkeys, hcells, hsig, hhalted, hlast⟩ := s.atReset_load rom
  refine ⟨fun a ha => ?_, fun k hk => ?_, fun a ha => ?_,
    hv, hi, hpc, hslots, hsp, hdt, hst, hkeys, hcells, hsig, hhalted, hlast⟩
  · rw [hread, if_pos ha]
  · rw [hread, if_neg (by omega), Nat.add_sub_cancel_left, List.getElem?_eq_getElem hk, Option.getD_some]
  · rw [hread, if_neg (by omega), List.getElem?_eq_none (by omega), Option.getD_none]

end Sys2Proof.Machine
end

section
/-! Fatal halts and the caller interface (spec/60_exceptions.md). -/

namespace Sys2Proof.Machine

/-! ## The fatals of the instructions -/

section
variable {α : Type} {r : Except Fatal α} {d : α → Disposition} {g : α → State}

/-- An instruction that completes once an operation has answered is never refused. -/
theorem attempt_complete_ne_refused (q : Refusal) : attempt r (fun a => complete (d a) (g a)) ≠ .refused q := by
  cases r <;> simp

/-- An instruction that completes once an operation has answered raises only the operation's own fatal. -/
theorem attempt_complete_fault {f : Fault} {cause : Fatal} (h : attempt r (fun a => complete (d a) (g a)) = .fault f)
    (hr : ∀ c, r = .error c → c = cause) : f = .fatal cause := by
  rcases attempt_fault.1 h with ⟨c, hc, rfl⟩ | ⟨a, -, ha⟩
  · rw [hr c hc]
  · exact absurd ha complete_ne_fault

end

section
variable {s : State} {c : Fatal}

theorem State.loadBytes_eq_error {base n : Nat} (h : s.loadBytes base n = .error c) :
    c = .memRange (max base 0x1000) := by
  rcases s.loadBytes_cases base n with ⟨-, e⟩ | ⟨-, -, e⟩ <;> rw [e] at h <;> cases h
  rfl

theorem State.storeBytes_eq_error {base : Nat} {bs : List Byte} (h : s.storeBytes base bs = .error c) :
    c = .memRange (max base 0x1000) := by
  rcases s.storeBytes_cases base bs with ⟨-, e⟩ | ⟨-, -, e⟩ <;> rw [e] at h <;> cases h
  rfl

theorem State.pushReturn_eq_error {ret : Word} (h : s.pushReturn ret = .error c) : c = .stackOverflow s.pc := by
  rcases State.pushReturn_cases ret s with ⟨-, e⟩ | ⟨-, _, e⟩ | ⟨-, -, e⟩ <;> rw [e] at h <;> cases h
  rfl

theorem keyIndex_eq_error {b : Byte} (h : keyIndex b = .error c) : c = .keyRange b := by
  by_cases hb : b.toNat ≤ 15
  · rw [keyIndex_ok hb] at h; cases h
  · rw [keyIndex_error (by omega)] at h; cases h; rfl

theorem indexSum_eq_error {i : Word} {b : Byte} (h : indexSum i b = .error c) :
    c = .indexOverflow (i.toNat + b.toNat) := by
  by_cases hle : i.toNat + b.toNat ≤ 0xFFFF
  · rw [indexSum_ok hle] at h; cases h
  · rw [indexSum_error (by omega)] at h; cases h; rfl

end

/-- A key wait completes, whether it holds PC or takes a key. -/
theorem exec_ldVxK_eq_complete (x : Reg) (s : State) : ∃ d t, exec (.ldVxK x) s = complete d t := by
  cases hkey : s.highestKey with
  | none => exact ⟨_, _, exec_ldVxK_of_none hkey⟩
  | some k => exact ⟨_, _, exec_ldVxK_of_some hkey⟩

/-- Every instruction is modelled. -/
theorem exec_ne_refused (i : Instr) (s : State) (r : Refusal) : exec i s ≠ .refused r := by
  cases i
  case call | drw | skp | sknp | addIVx | ldBVx | ldMemVx | ldVxMem => exact attempt_complete_ne_refused r
  case ldVxK x =>
    obtain ⟨d, t, hexec⟩ := exec_ldVxK_eq_complete x s
    exact hexec ▸ complete_ne_refused
  all_goals exact complete_ne_refused

/-- Settles O10: an instruction completes, or the one operation it attempts raises the fatal of that operation. -/
theorem instructionsRaiseOnlyTheirOwnFatal : Obligations.InstructionsRaiseOnlyTheirOwnFatal := by
  refine fun i s => ⟨exec_ne_refused i s, fun f h => ?_⟩
  cases i
  case call => exact attempt_complete_fault h fun _ => State.pushReturn_eq_error
  case drw | ldVxMem => exact attempt_complete_fault h fun _ => State.loadBytes_eq_error
  case ldBVx | ldMemVx => exact attempt_complete_fault h fun _ => State.storeBytes_eq_error
  case skp | sknp => exact attempt_complete_fault h fun _ => keyIndex_eq_error
  case addIVx => exact attempt_complete_fault h fun _ => indexSum_eq_error
  case ldVxK x =>
    obtain ⟨d, t, hexec⟩ := exec_ldVxK_eq_complete x s
    exact complete_ne_fault (hexec.symm.trans h)
  all_goals exact complete_ne_fault h

/-! ## The invariant over the caller's calls -/

section
variable {s t : State} {r : Reply}

/-- A cycle the caller sees complete is a step, or has halted the core (R329, R139). -/
theorem callCycle_next (h : callCycle s = .next (t, r)) : step s = .next t ∨ ∃ cause, t.halted = some cause := by
  unfold callCycle at h
  split at h <;> cases h
  · exact .inl ‹_›
  · exact .inr ⟨_, State.halt_halted _ _⟩

theorem State.load_inv {rom : List Byte} (hinv : Inv s) (hlen : rom.length ≤ 3584) : Inv (s.load rom) :=
  (s.atReset_load rom).inv (Memory.wf_load hinv.memory hlen)

/-- Keys and timers are no part of the invariant. -/
theorem Inv.setKey (hinv : Inv s) (k : Fin 16) (level : Bool) : Inv (s.setKey k level) :=
  ⟨hinv.memory, hinv.pc, hinv.slots, hinv.stack⟩

theorem Inv.tick (hinv : Inv s) : Inv s.tick := ⟨hinv.memory, hinv.pc, hinv.slots, hinv.stack⟩

theorem callRunning_keepsInv {c : Call} (hinv : Inv s) (h : callRunning s c = .next (t, r))
    (hrunning : t.halted = none) : Inv t := by
  cases c
  case construct font rand => cases h; exact construct_inv font rand
  case loadRom rom =>
    simp only [callRunning] at h
    split at h <;> cases h
    exact State.load_inv hinv ‹_›
  case setKey k level =>
    simp only [callRunning] at h
    split at h <;> cases h
    exact hinv.setKey _ level
  case getKey k =>
    simp only [callRunning] at h
    split at h <;> cases h
    exact hinv
  case cycle =>
    rcases callCycle_next h with hstep | ⟨cause, hhalted⟩
    · exact stepKeepsInv s t hinv hstep
    · exact absurd (hhalted.symm.trans hrunning) (Option.some_ne_none cause)
  case tick => cases h; exact hinv.tick
  all_goals cases h; exact hinv

end

/-- Settles O54: on a running core call by call; on a halted core only `construct` answers. -/
theorem callsKeepInv : Obligations.CallsKeepInv := by
  intro c s t r hinv h hrunning
  cases hhalted : s.halted with
  | none => exact callRunning_keepsInv hinv (call_of_running hhalted c ▸ h) hrunning
  | some cause =>
    rcases call_of_halted hhalted c with hfault | ⟨font, rand, rfl⟩
    · cases hfault.symm.trans h
    · cases (call_construct font rand s).symm.trans h
      exact construct_inv font rand

/-! ## Ticks, keys and polls -/

/-- R310: one less, and not below 0. -/
theorem tickDown_toNat (b : Byte) : (tickDown b).toNat = b.toNat - 1 := by
  unfold tickDown
  split <;> bv_omega

section
variable {may : Part → Prop} {s : State}

theorem ChangesOnly.tick (hdt : may .dt) (hst : may .st) : ChangesOnly may s s.tick := fun p hp => by
  cases p with
  | dt => exact absurd hdt hp
  | st => exact absurd hst hp
  | _ => rfl

theorem ChangesOnly.setKey {k : Fin 16} {level : Bool} (hk : may (.key k)) : ChangesOnly may s (s.setKey k level) :=
  fun p hp => by
  cases p with
  | key j =>
    have hkj : k ≠ j := fun h => hp (h ▸ hk)
    exact (s.key_setKey k j level).trans (if_neg hkj)
  | _ => rfl

end

/-- Settles O59: each is the caller's call on a running core, with the frame rules of a tick and of a key's level. -/
theorem tickKeysAndPolls : Obligations.TickKeysAndPolls := by
  intro s hrunning
  have hcall := call_of_running hrunning
  refine ⟨⟨s.tick, hcall .tick, tickDown_toNat s.dt, tickDown_toNat s.st, .tick (.inl rfl) (.inr rfl)⟩,
    fun k level => ⟨s.setKey k level, (hcall _).trans (dif_pos k.isLt), ?_, .setKey rfl⟩,
    fun k level hk => (hcall _).trans (dif_neg (by omega)), fun k => (hcall _).trans (dif_pos k.isLt),
    hcall .pollSignal, hcall .shouldPlayTone, hcall .lastInstruction⟩
  rw [State.key_setKey, if_pos rfl]

/-! ## The RGBA view -/

section
variable {α β : Type} {f : α → List β} {n : Nat}

/-- Blocks of one length laid end to end: element `j` of block `i` stands at `n * i + j`. -/
theorem flatMap_getElem?_of_length (hlen : ∀ a, (f a).length = n) (l : List α) (i : Nat) {j : Nat} (hj : j < n) :
    (l.flatMap f)[n * i + j]? = l[i]?.bind fun a => (f a)[j]? := by
  induction l generalizing i with
  | nil => rfl
  | cons a l ih =>
    rw [List.flatMap_cons]
    cases i with
    | zero => rw [Nat.mul_zero, Nat.zero_add, List.getElem?_append_left (by rwa [hlen])]; rfl
    | succ i =>
      rw [List.getElem?_append_right (by rw [hlen, Nat.mul_succ]; omega), hlen, List.getElem?_cons_succ, ← ih,
        Nat.mul_succ, Nat.add_right_comm, Nat.add_sub_cancel]

theorem flatMap_length_of_length (hlen : ∀ a, (f a).length = n) (l : List α) :
    (l.flatMap f).length = n * l.length := by
  simp [List.length_flatMap, hlen, Nat.mul_comm]

end

theorem rgbaCell_length (c : Bool) : (rgbaCell c).length = 4 := by cases c <;> rfl

/-- The bytes of one row of the grid. -/
def rgbaRow (row : Vector Bool 64) : List Byte := row.toList.flatMap rgbaCell

theorem rgbaRow_length (row : Vector Bool 64) : (rgbaRow row).length = 256 := by
  rw [rgbaRow, flatMap_length_of_length rgbaCell_length, Vector.length_toList]

theorem State.rgba_eq_flatMap_rgbaRow (s : State) : s.rgba = s.fb.toList.flatMap rgbaRow := rfl

theorem State.rgba_length (s : State) : s.rgba.length = 8192 := by
  rw [s.rgba_eq_flatMap_rgbaRow, flatMap_length_of_length rgbaRow_length, Vector.length_toList]

/-- The four bytes of cell (x, y) stand at 4 * (64 * y + x), row by row (R327). -/
theorem State.rgba_getElem? (s : State) (x : Fin 64) (y : Fin 32) {k : Nat} (hk : k < 4) :
    s.rgba[4 * (y.val * 64 + x.val) + k]? = (rgbaCell (s.cell x y))[k]? := by
  have hrow : s.fb.toList[y.val]? = some s.fb[y] := by simp
  have hcell : (s.fb[y]).toList[x.val]? = some (s.cell x y) := by simp [State.cell]
  calc s.rgba[4 * (y.val * 64 + x.val) + k]?
      = (s.fb.toList.flatMap rgbaRow)[256 * y.val + (4 * x.val + k)]? := by
        rw [s.rgba_eq_flatMap_rgbaRow]; congr 1; omega
    _ = (rgbaRow s.fb[y])[4 * x.val + k]? := by
        rw [flatMap_getElem?_of_length rgbaRow_length _ _ (by omega), hrow, Option.bind_some]
    _ = (rgbaCell (s.cell x y))[k]? := by
        rw [rgbaRow, flatMap_getElem?_of_length rgbaCell_length _ _ hk, hcell, Option.bind_some]

/-- Red, green and blue are all 255 for a cell of value 1 and all 0 for one of value 0 (R327, D31). -/
theorem rgbaCell_color (c : Bool) {k : Nat} (hk : k < 3) :
    (rgbaCell c)[k]? = some (if c = true then 0xFF else 0x00) := by
  cases c <;> interval_cases k <;> rfl

theorem rgbaCell_alpha (c : Bool) : (rgbaCell c)[3]? = some 0xFF := by cases c <;> rfl

/-- Settles O60, by where a cell's bytes stand and what they are. -/
theorem rgbaLayout : Obligations.RgbaLayout := by
  refine fun s hrunning => ⟨s.rgba, call_of_running hrunning _, s.rgba_length, fun x y => ⟨fun k hk => ?_, ?_⟩⟩
  · rw [s.rgba_getElem? x y (by omega), rgbaCell_color _ hk]
  · rw [s.rgba_getElem? x y (by decide), rgbaCell_alpha]

end Sys2Proof.Machine
end
